-- ==== Sys2Proof/Word.lean ====
section
/-! DEFINITION. The word types of ACMD-CRCLFS (spec 00_scope.md rules R10 and R11): a byte is 8 bits, a halfword 16,
a word 32; all values are unsigned and bit 0 is the least significant bit. -/

namespace Sys2Proof

/-- A data byte (R10, R11). -/
abbrev Byte := BitVec 8

/-- A halfword: the CRC register, a table entry, the cursor, the line length, an address operand (R10, R11). -/
abbrev Half := BitVec 16

/-- A word: an op word of the control port, or a read result (R10, R11). -/
abbrev Word := BitVec 32

end Sys2Proof
end

