-- ==== Sys2Proof/Config.lean ====
section
/-! DEFINITION. The build-time parameters of the block (spec 00_scope.md rule R9). The spec leaves C and ECHO OPEN,
"a model argument": they are a record here, State carries one, every statement about a state holds for every value of
it, and no step changes it. The block needs no free value: the only open value, the contents of a cell nothing has
written, is never exposed, since reading it faults (R53). -/

namespace Sys2Proof

/-- Which bytes end a line: the parameter DELIM_MODE (R9, R131). -/
inductive DelimMode where
  /-- LF alone ends a line. -/
  | lfOnly
  /-- CR or LF ends a line. -/
  | crOrLf
  deriving DecidableEq, Repr

/-- The three build-time parameters of R9. `capacity` is C, the number of cells of the line buffer; its type holds the
upper bound C <= 65535, and `Params.wf` the lower bound 1 <= C. -/
structure Params where
  /-- C, the line buffer's capacity in bytes. -/
  capacity : Fin 65536
  /-- DELIM_MODE. -/
  delimMode : DelimMode
  /-- ECHO: echo each stored byte to the event trace. -/
  echo : Bool
  deriving DecidableEq, Repr

end Sys2Proof
end

