-- ==== Sys2Proof/Syntax.lean ====
section
/-! DEFINITION. The operations of the block as syntax: one constructor of `Instr` for each row of
spec/opcode_table.json, the two input ports and their words (30_encoding.md R70), the fields and formats of an op word
(R71, R72), the reasons an op word is illegal (R76), and the pseudo-operations of the assembler (R79). -/

namespace Sys2Proof

/-- The operations of the block (R74, R75). An address or length operand is the 16-bit A field and a data operand the
8-bit D field (R73), so every term of this type has an encoding. -/
inductive Instr where
  /-- NOP (R170). -/
  | nop
  /-- CRC_INIT (R104). -/
  | crcInit
  /-- CRC_FEED d (R105). -/
  | crcFeed (d : Byte)
  /-- CRC_BUF n (R106). -/
  | crcBuf (n : Half)
  /-- CRC_RD (R107). -/
  | crcRd
  /-- LFS_RELEASE (R140). -/
  | lfsRelease
  /-- LFS_CLEAR (R145). -/
  | lfsClear
  /-- BUF_RD a (R171). -/
  | bufRd (a : Half)
  /-- BUF_WR a, d (R172). -/
  | bufWr (a : Half) (d : Byte)
  /-- STATUS_RD (R173). -/
  | statusRd
  /-- LEN_RD (R174). -/
  | lenRd
  /-- RX_BYTE b, the one operation of the RX port (R132). -/
  | rxByte (b : Byte)
  deriving DecidableEq, Repr

/-- The two input ports (R70); each has one agent that drives it (00_scope.md R8). -/
inductive Port where
  /-- The RX port, driven by the channel. -/
  | rx
  /-- The control port, driven by the controller. -/
  | control
  deriving DecidableEq, Repr

/-- A word as it arrives on a port: the port fixes its length (R70). -/
inductive PortWord where
  /-- A received byte on the RX port. -/
  | rx (b : Byte)
  /-- An op word on the control port. -/
  | op (w : Word)
  deriving DecidableEq, Repr

/-- The port an operation is presented on. -/
def Instr.port : Instr → Port
  | .rxByte _ => .rx
  | .nop => .control
  | .crcInit => .control
  | .crcFeed _ => .control
  | .crcBuf _ => .control
  | .crcRd => .control
  | .lfsRelease => .control
  | .lfsClear => .control
  | .bufRd _ => .control
  | .bufWr _ _ => .control
  | .statusRd => .control
  | .lenRd => .control

/-- The four fields of an op word (R71). -/
structure OpFields where
  /-- OP, bits 31:28. -/
  op : BitVec 4
  /-- RSV, bits 27:24. -/
  rsv : BitVec 4
  /-- A, bits 23:8. -/
  a : Half
  /-- D, bits 7:0. -/
  d : Byte
  deriving DecidableEq, Repr

/-- The four formats of an op word (R72). -/
inductive Format where
  /-- Z: A and D must be 0. -/
  | z
  /-- D: A must be 0, D is a byte operand. -/
  | d
  /-- A: A is an address or a length, D must be 0. -/
  | a
  /-- AD: A is an address, D is a byte operand. -/
  | ad
  deriving DecidableEq, Repr

/-- Why an op word is illegal: the four conditions of R76. -/
inductive Illegal where
  /-- (1) OP is 0xB to 0xF. -/
  | reservedOp
  /-- (2) RSV is not 0. -/
  | rsvNonzero
  /-- (3) A is not 0 where the format requires 0. -/
  | aNonzero
  /-- (4) D is not 0 where the format requires 0. -/
  | dNonzero
  deriving DecidableEq, Repr

/-- One row of the opcode map of R74. -/
structure OpRow where
  /-- The mnemonic, as spec/opcode_table.json spells it. -/
  mnemonic : String
  /-- The column "match". -/
  pattern : Word
  /-- The column "mask". -/
  mask : Word
  deriving DecidableEq, Repr

/-- The pseudo-operations of the assembler (R79). -/
inductive Pseudo where
  /-- RX_STR: one RX_BYTE for each byte. -/
  | rxStr (bs : List Byte)
  /-- CRC_STR: one CRC_FEED for each byte. -/
  | crcStr (bs : List Byte)
  /-- CRC16: CRC_INIT, then CRC_STR. -/
  | crc16 (bs : List Byte)
  /-- NUL_TERM n: BUF_WR n-1, 0x00. -/
  | nulTerm (n : Half)
  deriving DecidableEq, Repr

end Sys2Proof
end

