-- ==== Sys2Proof/WellFormed.lean ====
section
/-! DEFINITION. What is well formed: the parameters (00_scope.md R9), the fields of an op word (30_encoding.md R72 and
R76, one check for each of R76's four conditions), an operation's operand against the capacity of the instance (R73)
and a pseudo-operation (R79). Every term of `Instr` is encodable by its type, so `Instr` itself needs no check. -/

namespace Sys2Proof

/-- The parameters are legal: 1 <= C, the upper bound being in the type (R9). -/
def Params.wf (p : Params) : Bool := decide (0 < p.capacity.val)

/-- The format of each assigned OP code; none for the reserved codes 0xB to 0xF (R72, R74). -/
def formatOf (op : BitVec 4) : Option Format :=
  match op.toNat with
  | 0x0 => some .z
  | 0x1 => some .z
  | 0x2 => some .d
  | 0x3 => some .a
  | 0x4 => some .z
  | 0x5 => some .z
  | 0x6 => some .z
  | 0x7 => some .a
  | 0x8 => some .ad
  | 0x9 => some .z
  | 0xA => some .z
  | _ => none

/-- R76 (1): OP is an assigned code. -/
def OpFields.opAssigned (f : OpFields) : Bool := (formatOf f.op).isSome

/-- R76 (2): RSV is 0. -/
def OpFields.rsvZero (f : OpFields) : Bool := f.rsv == 0

/-- R76 (3): A is 0 where the format requires it (formats Z and D). -/
def OpFields.aZeroIfUnused (f : OpFields) : Bool :=
  match formatOf f.op with
  | some .z => f.a == 0
  | some .d => f.a == 0
  | some .a => true
  | some .ad => true
  | none => true

/-- R76 (4): D is 0 where the format requires it (formats Z and A). -/
def OpFields.dZeroIfUnused (f : OpFields) : Bool :=
  match formatOf f.op with
  | some .z => f.d == 0
  | some .a => f.d == 0
  | some .d => true
  | some .ad => true
  | none => true

/-- The fields are those of a legal op word: none of R76's four conditions holds. -/
def OpFields.wf (f : OpFields) : Bool :=
  f.opAssigned && f.rsvZero && f.aZeroIfUnused && f.dZeroIfUnused

/-- The operand is in range for an instance of capacity C: A < C for BUF_RD and BUF_WR, A <= C for CRC_BUF (R73). The
decoder does not check it; the operation does, and raises AddrRange where it fails. -/
def Instr.inRange (p : Params) : Instr → Bool
  | .bufRd a => decide (a.toNat < p.capacity.val)
  | .bufWr a _ => decide (a.toNat < p.capacity.val)
  | .crcBuf n => decide (n.toNat ≤ p.capacity.val)
  | .nop => true
  | .crcInit => true
  | .crcFeed _ => true
  | .crcRd => true
  | .lfsRelease => true
  | .lfsClear => true
  | .statusRd => true
  | .lenRd => true
  | .rxByte _ => true

/-- A pseudo-operation has an expansion: NUL_TERM 0 has none, since there is no address 0 - 1 (R79). -/
def Pseudo.wf : Pseudo → Bool
  | .nulTerm n => n != 0
  | .rxStr _ => true
  | .crcStr _ => true
  | .crc16 _ => true

end Sys2Proof
end

