-- ==== Sys2Proof/Decode.lean ====
section
/-! DEFINITION. The decoder of both ports (30_encoding.md R70 to R77), the encoder written from the same tables, the
opcode map of R74 as data, and the expansion of the pseudo-operations (R79). The decoder is total: a word is an
operation, or illegal with the reason named. -/

namespace Sys2Proof

/-- The fields of an op word, `OP[31:28] RSV[27:24] A[23:8] D[7:0]` (R71). -/
def opFields (w : Word) : OpFields where
  op := w.extractLsb' 28 4
  rsv := w.extractLsb' 24 4
  a := w.extractLsb' 8 16
  d := w.extractLsb' 0 8

/-- Decoding a format Z operation: A and D must be 0 (R72, R77). -/
def decodeZ (f : OpFields) (i : Instr) : Except Illegal Instr :=
  if f.a ≠ 0 then .error .aNonzero else if f.d ≠ 0 then .error .dNonzero else .ok i

/-- Decoding a format D operation: A must be 0 (R72, R77). -/
def decodeD (f : OpFields) (i : Byte → Instr) : Except Illegal Instr :=
  if f.a ≠ 0 then .error .aNonzero else .ok (i f.d)

/-- Decoding a format A operation: D must be 0 (R72, R77). -/
def decodeA (f : OpFields) (i : Half → Instr) : Except Illegal Instr :=
  if f.d ≠ 0 then .error .dNonzero else .ok (i f.a)

/-- The op word decoder on fields: the pseudocode of R77, `RSV` first, then `case op of`. -/
def decodeFields (f : OpFields) : Except Illegal Instr :=
  if f.rsv ≠ 0 then .error .rsvNonzero
  else
    match f.op.toNat with
    | 0x0 => decodeZ f .nop
    | 0x1 => decodeZ f .crcInit
    | 0x2 => decodeD f .crcFeed
    | 0x3 => decodeA f .crcBuf
    | 0x4 => decodeZ f .crcRd
    | 0x5 => decodeZ f .lfsRelease
    | 0x6 => decodeZ f .lfsClear
    | 0x7 => decodeA f .bufRd
    | 0x8 => .ok (.bufWr f.a f.d)
    | 0x9 => decodeZ f .statusRd
    | 0xA => decodeZ f .lenRd
    | _ => .error .reservedOp

/-- The control port's decoder (R77). -/
def decodeOp (w : Word) : Except Illegal Instr := decodeFields (opFields w)

/-- The RX port's decoder: the word is the received byte itself and none is illegal (R75). -/
def decodeRx (b : Byte) : Instr := .rxByte b

/-- The decoder of a word on either port. -/
def decode : PortWord → Except Illegal Instr
  | .rx b => .ok (decodeRx b)
  | .op w => decodeOp w

/-- An op word from its OP, A and D fields, with RSV = 0 (R71). -/
def opWord (op : BitVec 4) (a : Half) (d : Byte) : Word := op ++ (0#4 ++ (a ++ d))

/-- The encoder: each operation's word, from the opcode map and the formats (R72, R74, R75). -/
def encode : Instr → PortWord
  | .nop => .op (opWord 0x0 0 0)
  | .crcInit => .op (opWord 0x1 0 0)
  | .crcFeed d => .op (opWord 0x2 0 d)
  | .crcBuf n => .op (opWord 0x3 n 0)
  | .crcRd => .op (opWord 0x4 0 0)
  | .lfsRelease => .op (opWord 0x5 0 0)
  | .lfsClear => .op (opWord 0x6 0 0)
  | .bufRd a => .op (opWord 0x7 a 0)
  | .bufWr a d => .op (opWord 0x8 a d)
  | .statusRd => .op (opWord 0x9 0 0)
  | .lenRd => .op (opWord 0xA 0 0)
  | .rxByte b => .rx b

/-- The opcode map of R74, row by row. -/
def opTable : List OpRow := [
  ⟨"NOP", 0x00000000, 0xFFFFFFFF⟩,
  ⟨"CRC_INIT", 0x10000000, 0xFFFFFFFF⟩,
  ⟨"CRC_FEED", 0x20000000, 0xFFFFFF00⟩,
  ⟨"CRC_BUF", 0x30000000, 0xFF0000FF⟩,
  ⟨"CRC_RD", 0x40000000, 0xFFFFFFFF⟩,
  ⟨"LFS_RELEASE", 0x50000000, 0xFFFFFFFF⟩,
  ⟨"LFS_CLEAR", 0x60000000, 0xFFFFFFFF⟩,
  ⟨"BUF_RD", 0x70000000, 0xFF0000FF⟩,
  ⟨"BUF_WR", 0x80000000, 0xFF000000⟩,
  ⟨"STATUS_RD", 0x90000000, 0xFFFFFFFF⟩,
  ⟨"LEN_RD", 0xA0000000, 0xFFFFFFFF⟩]

/-- A word selects a row when `(word & mask) == match` (R74). -/
def OpRow.selects (r : OpRow) (w : Word) : Bool := w &&& r.mask == r.pattern

/-- The mnemonic of each operation, as spec/opcode_table.json spells it. -/
def Instr.mnemonic : Instr → String
  | .nop => "NOP"
  | .crcInit => "CRC_INIT"
  | .crcFeed _ => "CRC_FEED"
  | .crcBuf _ => "CRC_BUF"
  | .crcRd => "CRC_RD"
  | .lfsRelease => "LFS_RELEASE"
  | .lfsClear => "LFS_CLEAR"
  | .bufRd _ => "BUF_RD"
  | .bufWr _ _ => "BUF_WR"
  | .statusRd => "STATUS_RD"
  | .lenRd => "LEN_RD"
  | .rxByte _ => "RX_BYTE"

/-- The host's reading of a table row's bits: a row of 8 bits is a word of the RX port, a row of 32 bits a word of the
control port (R70), and no other length exists. -/
def decodeTableWord (nbits w : Nat) : Option Instr :=
  if nbits = 8 then (decode (.rx (BitVec.ofNat 8 w))).toOption
  else if nbits = 32 then (decode (.op (BitVec.ofNat 32 w))).toOption
  else none

/-- The expansion of a pseudo-operation (R79); none for NUL_TERM 0. -/
def expand (p : Pseudo) : Option (List Instr) :=
  match p with
  | .rxStr bs => some (bs.map .rxByte)
  | .crcStr bs => some (bs.map .crcFeed)
  | .crc16 bs => some (.crcInit :: bs.map .crcFeed)
  | .nulTerm n => if n = 0 then none else some [.bufWr (n - 1) 0]

end Sys2Proof
end

