-- ==== Sys2Proof/Machine/Instance.lean ====
section
/-! DEFINITION. The instance that `State.reset` stands for, and the reset value of the CRC register. DESIGN CHOICE
(log 1): the spec leaves C and ECHO open as arguments of the model, so the reset state of EVERY instance is
`State.resetWith p`, and this file only names the one of the fixed name `State.reset`. -/

namespace Sys2Proof.Machine

/-- The parameters of `State.reset`: DELIM_MODE is the spec's own value CR_OR_LF (R9, D5); C = 8 and ECHO false are the
model's (DESIGN CHOICE, log 1). No statement rests on them. -/
def instanceParams : Params where
  capacity := 8
  delimMode := .crOrLf
  echo := false

/-- 0xFFFF, the initial value of the CRC: what CRC_INIT writes, what `crc16` starts from and the register's reset value
(R21, R101). -/
def crcInitial : Half := 0xFFFF

end Sys2Proof.Machine
end

