-- ==== Sys2Proof/Machine/State.lean ====
section
/-! DEFINITION. The state of the block as plain data: the tuple of 10_state.md R20 (with `written` read off `buf`, log
6), the parameters of the instance (log 1), and what the model adds to run both agents in one deterministic step: the
words each agent has waiting, the turns, and the results returned (log 2, log 5). -/

namespace Sys2Proof.Machine

/-- The line buffer: the written cells with their addresses strictly rising; a cell that is not listed has
`written = 0` (R23). -/
abbrev Memory := List Host.Cell

/-- The synchronizer's handshake state (R25). -/
inductive Phase where
  /-- RUN: accumulating bytes. -/
  | run
  /-- LINE_PENDING: a complete line is held for the controller. -/
  | linePending
  /-- OVF_PENDING: an input overflow is being serviced. -/
  | ovfPending
  deriving DecidableEq, Repr

/-- An event of the trace (R29). -/
inductive Event where
  /-- Echo(b): the received byte b echoed. -/
  | echo (b : Byte)
  /-- Line(n): a line of n bytes is ready. -/
  | line (n : Nat)
  /-- Overflow: an input overflow was detected. -/
  | overflow
  deriving DecidableEq, Repr

/-- The reasons of the block's faults (R190). -/
inductive FaultReason where
  /-- IllegalOp: an op word that is no operation (R76). -/
  | illegalOp
  /-- AddrRange: an address at or past C, or a length past C (R52). -/
  | addrRange
  /-- UninitRead: a read of a cell nothing has written since reset (R53). -/
  | uninitRead
  /-- ProtocolViolation: a release in RUN (R142). -/
  | protocolViolation
  deriving DecidableEq, Repr

/-- The fault record: the reason and the op word that raised it (R28). -/
structure FaultRecord where
  /-- Why the block faulted. -/
  reason : FaultReason
  /-- The op word that raised the fault. -/
  word : Word
  deriving DecidableEq, Repr

/-- Which input moves next: one agent, or RESET (R8, R59, R220). -/
inductive Turn where
  /-- The channel presents its next byte. -/
  | channel
  /-- The controller presents its next op word. -/
  | controller
  /-- RESET is asserted. -/
  | reset
  deriving DecidableEq, Repr

/-- The state of the block and of its inputs (R20). -/
structure State where
  /-- C, DELIM_MODE and ECHO, which no step changes (R9). -/
  params : Params
  /-- The CRC register (R21). -/
  crc : Half
  /-- The line buffer with its `written` bits (R23). -/
  buf : Memory
  /-- The next write position (R24). -/
  cursor : Half
  /-- The handshake state (R25). -/
  phase : Phase
  /-- The byte held across an overflow (R26). -/
  held : Option Byte
  /-- The length of the last line handed over (R27). -/
  lineLen : Half
  /-- The fault record (R28). -/
  fault : Option FaultRecord
  /-- The events emitted since reset, oldest first (R29). -/
  trace : List Event
  /-- The model's own: the bytes waiting in the channel, next first (R130, log 2). -/
  channel : List Byte
  /-- The model's own: the op words the controller will present, next first (log 2). -/
  controller : List Word
  /-- The model's own: which input moves next, and after it (log 2). -/
  turns : List Turn
  /-- The model's own: the results returned to the controller since reset, oldest first (R8, log 5). -/
  results : List Word
  deriving DecidableEq, Repr

/-- Where `exec` has no step to take. None of these is a fault of the block: the block's faults are recorded in
`State.fault` and are next states (R28, R191). `step` answers none of them in a state that meets the invariant (log 4). -/
inductive Fault where
  /-- Stuck, answered by every meaning: the block has faulted, so neither agent has a step (R191). Safe: nothing is
  claimed of a step that does not exist. -/
  | blockFaulted
  /-- Stuck, answered by RX_BYTE's meaning alone: the RX port is not ready because a phase is pending, so the channel has
  no step and the byte waits in it (R130, U8). Safe, as above. -/
  | channelHeld
  /-- Stuck, answered by LFS_RELEASE's meaning alone: OVF_PENDING with nothing in `held`, a state that no run reaches (R26,
  R36 item 2). Safe, as above. -/
  | heldEmpty
  deriving DecidableEq, Repr

/-- Why an instruction has no meaning. No arm of `exec` answers this. -/
inductive Refusal where
  /-- The instruction's meaning is not written yet. Raised by no arm; safe, since nothing can be proved of a run past
  it. -/
  | notModelled (mnemonic : String)
  deriving DecidableEq, Repr

/-- The state after reset of the instance with parameters `p` (R35, R220, R222). -/
def State.resetWith (p : Params) : State where
  params := p
  crc := crcInitial
  buf := []
  cursor := 0
  phase := .run
  held := none
  lineLen := 0
  fault := none
  trace := []
  channel := []
  controller := []
  turns := []
  results := []

/-- The state after reset of the instance the model names (log 1), with nothing presented to it yet (log 2). -/
def State.reset : State := State.resetWith instanceParams

end Sys2Proof.Machine
end

