-- ==== Sys2Proof/Machine/Ops.lean ====
section
/-! DEFINITION. The shared operations over the line buffer and the registers: reading and writing one cell (20_memory.md
R50 to R54), taking a fault and its one exit, RESET (60_exceptions.md R191, 70_reset_and_hazards.md R220), emitting an
event, returning a result, and the synchronizer's `accept` and overflow (41_lfs.md R132, R133). -/

namespace Sys2Proof.Machine

/-- The byte in cell `a`, or none where `written[a]` is 0 (R23, R53). -/
def Memory.read : Memory → Nat → Option Byte
  | [], _ => none
  | c :: m, a => if c.1 = a then some c.2 else Memory.read m a

/-- `buf[a] <- v` and `written[a] <- 1` (R134, R172): the cell takes its place in the rising order of addresses. -/
def Memory.write : Memory → Nat → Byte → Memory
  | [], a, v => [(a, v)]
  | c :: m, a, v =>
    if a < c.1 then (a, v) :: c :: m
    else if c.1 = a then (a, v) :: m
    else c :: Memory.write m a v

/-- The bytes of cells 0 to n-1 in ascending order, or none where one of them has not been written (R54, R106). -/
def Memory.readFirst (m : Memory) : Nat → Option (List Byte)
  | 0 => some []
  | n + 1 =>
    match Memory.readFirst m n, Memory.read m n with
    | some bs, some b => some (bs ++ [b])
    | _, _ => none

/-- The canonical form: addresses strictly rising. No listed cell reads as an unlisted one does, since an unlisted cell
has no value. -/
def Memory.wf : Memory → Bool
  | [] => true
  | [_] => true
  | c :: d :: m => decide (c.1 < d.1) && Memory.wf (d :: m)

/-- Every listed cell is a cell of a buffer of capacity `n`: its address is below `n` (R50, R52). -/
def Memory.below (m : Memory) (n : Nat) : Bool := m.all fun c => decide (c.1 < n)

/-- C, the capacity of the instance (R9). -/
def State.cap (s : State) : Nat := s.params.capacity.val

/-- `written[a]` (R23). -/
def State.written (s : State) (a : Nat) : Bool := (Memory.read s.buf a).isSome

/-- Fault entry: the record is set and nothing else changes (R13, R191). -/
def State.raise (s : State) (r : FaultReason) (w : Word) : State := { s with fault := some ⟨r, w⟩ }

/-- `emit E`: append an event to the trace (R12, R29). -/
def State.emit (s : State) (e : Event) : State := { s with trace := s.trace ++ [e] }

/-- `return v`: hand a result to the controller (R8, R12). -/
def State.giveResult (s : State) (v : Word) : State := { s with results := s.results ++ [v] }

/-- Write one cell of the buffer and mark it written (R134, R172). -/
def State.storeByte (s : State) (a : Nat) (b : Byte) : State := { s with buf := Memory.write s.buf a b }

/-- RESET: every piece of the block's state takes its reset value; the parameters stay (R220). The bytes waiting in the
channel are not the block's and stay (R221), and so do the op words not yet presented and the turns to come (DEDUCED,
log 7). -/
def State.applyReset (s : State) : State :=
  { State.resetWith s.params with channel := s.channel, controller := s.controller, turns := s.turns }

/-- The op word of a control operation, which a fault records (R28, R190). RX_BYTE has no op word and raises no fault
(R132); its byte stands for it here only to make the function total. -/
def opWordOf (i : Instr) : Word :=
  match encode i with
  | .op w => w
  | .rx b => b.zeroExtend 32

/-- The step of an operation that raises a fault (R191): a next state, with the fault entered. -/
def faultWith (s : State) (r : FaultReason) (i : Instr) : Host.Outcome State Fault Refusal :=
  .next (s.raise r (opWordOf i))

/-- An operation runs only while the block has not faulted: after a fault neither agent has a step (R191). -/
def whenLive (s : State) (o : Host.Outcome State Fault Refusal) : Host.Outcome State Fault Refusal :=
  match s.fault with
  | none => o
  | some _ => .fault .blockFaulted

/-- LF (R14). -/
def lf : Byte := 0x0A

/-- CR (R14). -/
def cr : Byte := 0x0D

/-- `is_delim(b)` (R131). -/
def isDelim (p : Params) (b : Byte) : Bool :=
  match p.delimMode with
  | .lfOnly => b == lf
  | .crOrLf => b == lf || b == cr

/-- Echo, where the parameter ECHO is on (R135). -/
def State.echoByte (s : State) (b : Byte) : State := if s.params.echo then s.emit (.echo b) else s

/-- A delimiter is in the buffer at the cursor: record the length, hand the line over, keep the cursor (R136). -/
def State.handOver (s : State) : State :=
  { s.emit (.line (s.cursor.toNat + 1)) with lineLen := s.cursor + 1, phase := .linePending }

/-- A byte that is no delimiter is in the buffer at the cursor: move past it (R136). -/
def State.advance (s : State) : State := { s with cursor := s.cursor + 1 }

/-- `accept(b)`: store at the cursor, echo, then delimiter detection (R132, R134 to R136). -/
def State.accept (s : State) (b : Byte) : State :=
  let stored := (s.storeByte s.cursor.toNat b).echoByte b
  if isDelim s.params b then stored.handOver else stored.advance

/-- Input overflow: emit Overflow, hold the byte, drop the line so far, wait for the release (R133). -/
def State.overflow (s : State) (b : Byte) : State :=
  { s.emit .overflow with held := some b, cursor := 0, phase := .ovfPending }

end Sys2Proof.Machine
end

