-- ==== Sys2Proof/Machine/Flags.lean ====
section
/-! DEFINITION. The block has no flag register (10_state.md R31); what it computes from its state in place of flags is
here: the three level outputs (R32), the STATUS word and its phase code (R33), and the fault codes (60_exceptions.md
R190). -/

namespace Sys2Proof.Machine

/-- `rx_ready` (R32, R130). -/
def State.rxReady (s : State) : Bool := s.phase == .run && s.fault == none

/-- `line_pending` (R32). -/
def State.linePendingOut (s : State) : Bool := s.phase == .linePending && s.fault == none

/-- `ovf_pending` (R32). -/
def State.ovfPendingOut (s : State) : Bool := s.phase == .ovfPending && s.fault == none

/-- The STATUS code of a phase (R25, R33). -/
def phaseCode : Phase → BitVec 2
  | .run => 0
  | .linePending => 1
  | .ovfPending => 2

/-- DMODE: 1 for CR_OR_LF, 0 for LF_ONLY (R33). -/
def dmodeBit : DelimMode → BitVec 1
  | .lfOnly => 0
  | .crOrLf => 1

/-- ECHO as a bit (R33). -/
def echoBit (echo : Bool) : BitVec 1 := if echo then 1 else 0

/-- The STATUS word, from bit 31 down: reserved 0, CURSOR, reserved 0, DMODE, ECHO, PHASE (R33, R173). -/
def statusWord (s : State) : Word :=
  0#8 ++ (s.cursor ++ (0#4 ++ (dmodeBit s.params.delimMode ++ (echoBit s.params.echo ++ phaseCode s.phase))))

/-- The code of a fault reason, the spec's numbering (R190). -/
def faultCode : FaultReason → Nat
  | .illegalOp => 1
  | .addrRange => 2
  | .uninitRead => 3
  | .protocolViolation => 4

end Sys2Proof.Machine
end

