-- ==== Sys2Proof/Machine/Operands.lean ====
section
/-! DEFINITION. The operand forms: an address A, checked against C (A < C), and a length A, checked against C (A <= C)
(30_encoding.md R73, 20_memory.md R52), and the byte or bytes of the buffer such an operand names. The data operand D
is the byte itself. Each answers the value or the reason of the fault, in the order of R198: range before
written-ness. -/

namespace Sys2Proof.Machine

/-- The address operand of BUF_RD and BUF_WR: AddrRange at or past C (R52, R171, R172). -/
def addrOperand (s : State) (a : Half) : Except FaultReason Nat :=
  if s.cap ≤ a.toNat then .error .addrRange else .ok a.toNat

/-- The length operand of CRC_BUF: AddrRange past C (R52, R106). -/
def lenOperand (s : State) (n : Half) : Except FaultReason Nat :=
  if s.cap < n.toNat then .error .addrRange else .ok n.toNat

/-- The byte that an address operand names: UninitRead where the cell has not been written (R53, R171). -/
def byteOperand (s : State) (a : Half) : Except FaultReason Byte :=
  match addrOperand s a with
  | .error r => .error r
  | .ok k =>
    match Memory.read s.buf k with
    | none => .error .uninitRead
    | some b => .ok b

/-- The bytes that a length operand names, cells 0 to n-1: UninitRead where one has not been written (R53, R106). -/
def bytesOperand (s : State) (n : Half) : Except FaultReason (List Byte) :=
  match lenOperand s n with
  | .error r => .error r
  | .ok k =>
    match Memory.readFirst s.buf k with
    | none => .error .uninitRead
    | some bs => .ok bs

end Sys2Proof.Machine
end

