-- ==== Sys2Proof/Machine/Buffer.lean ====
section
/-! DEFINITION. The controller's access to the buffer and to status: the meanings of NOP, BUF_RD, BUF_WR, STATUS_RD and
LEN_RD (42_buffer_status.md R170 to R174). -/

namespace Sys2Proof.Machine

/-- NOP: no state changes (R170). -/
def execNop (s : State) : Host.Outcome State Fault Refusal := whenLive s (.next s)

/-- BUF_RD: return `zext_32(buf[a])`; AddrRange, then UninitRead (R171, R198). -/
def execBufRd (a : Half) (s : State) : Host.Outcome State Fault Refusal :=
  whenLive s <|
    match byteOperand s a with
    | .error r => faultWith s r (.bufRd a)
    | .ok b => .next (s.giveResult (b.zeroExtend 32))

/-- BUF_WR: `buf[a] <- D`, `written[a] <- 1`; AddrRange at or past C (R172). -/
def execBufWr (a : Half) (d : Byte) (s : State) : Host.Outcome State Fault Refusal :=
  whenLive s <|
    match addrOperand s a with
    | .error r => faultWith s r (.bufWr a d)
    | .ok k => .next (s.storeByte k d)

/-- STATUS_RD: return the STATUS word (R173). -/
def execStatusRd (s : State) : Host.Outcome State Fault Refusal :=
  whenLive s (.next (s.giveResult (statusWord s)))

/-- LEN_RD: return `zext_32(line_len)` (R174). -/
def execLenRd (s : State) : Host.Outcome State Fault Refusal :=
  whenLive s (.next (s.giveResult (s.lineLen.zeroExtend 32)))

end Sys2Proof.Machine
end

