-- ==== Sys2Proof/Machine/Crc.lean ====
section
/-! DEFINITION. The CRC generator: the step function and `crc16` (40_crc.md R102), the generation rule of the table
(R100) and the bit-serial step (R108) as clear forms beside it, and the meanings of CRC_INIT, CRC_FEED, CRC_BUF and
CRC_RD (R104 to R107). -/

namespace Sys2Proof.Machine

/-- `crc_step(c, b)`: the table-driven step (R102). -/
def crcStep (c : Half) (b : Byte) : Half :=
  (c <<< 8) ^^^ crcEntry ((c >>> 8).truncate 8 ^^^ b)

/-- The left fold of the step over bytes, from any CRC value (R102, R109). -/
def crcFold (c : Half) (bs : List Byte) : Half := bs.foldl crcStep c

/-- `crc16`: the fold from 0xFFFF (R102). -/
def crc16 (bs : List Byte) : Half := crcFold crcInitial bs

/-- One shift through the polynomial 0x1021, most significant bit first (R100, R108). -/
def shiftPoly (c : Half) : Half := if c.getLsbD 15 then (c <<< 1) ^^^ 0x1021 else c <<< 1

/-- Eight shifts through the polynomial (R100, R108). -/
def shiftPoly8 (c : Half) : Half := Nat.repeat shiftPoly 8 c

/-- The table's generation rule: the byte in the high byte, eight shifts (R100). -/
def crcEntryGen (i : Byte) : Half := shiftPoly8 (i.zeroExtend 16 <<< 8)

/-- `crc_bits(c, b)`: the bit-serial step (R108). -/
def crcBits (c : Half) (b : Byte) : Half := shiftPoly8 (c ^^^ (b.zeroExtend 16 <<< 8))

/-- Write the CRC register (R21). -/
def State.setCrc (s : State) (c : Half) : State := { s with crc := c }

/-- CRC_INIT: `crc <- 0xFFFF` (R104). -/
def execCrcInit (s : State) : Host.Outcome State Fault Refusal :=
  whenLive s (.next (s.setCrc crcInitial))

/-- CRC_FEED: `crc <- crc_step(crc, D)` (R105). -/
def execCrcFeed (d : Byte) (s : State) : Host.Outcome State Fault Refusal :=
  whenLive s (.next (s.setCrc (crcStep s.crc d)))

/-- CRC_BUF: `crc16` over the first n bytes of the buffer, whatever the register held; AddrRange, then UninitRead, with
`crc` kept (R106, R198). -/
def execCrcBuf (n : Half) (s : State) : Host.Outcome State Fault Refusal :=
  whenLive s <|
    match bytesOperand s n with
    | .error r => faultWith s r (.crcBuf n)
    | .ok bs => .next (s.setCrc (crc16 bs))

/-- CRC_RD: return `zext_32(crc)` (R107). -/
def execCrcRd (s : State) : Host.Outcome State Fault Refusal :=
  whenLive s (.next (s.giveResult (s.crc.zeroExtend 32)))

end Sys2Proof.Machine
end

