-- ==== Sys2Proof/Machine/Lfs.lean ====
section
/-! DEFINITION. The line-frame synchronizer: the meanings of RX_BYTE, LFS_RELEASE and LFS_CLEAR (41_lfs.md R130 to
R145). -/

namespace Sys2Proof.Machine

/-- The start of the release of an overflow: `held <- none`, `cursor <- 0`, `phase <- RUN` (R140). -/
def State.resume (s : State) : State := { s with held := none, cursor := 0, phase := .run }

/-- RX_BYTE in RUN: overflow where the cursor has reached C, else `accept(b)` (R132, R133). -/
def State.receive (s : State) (b : Byte) : State :=
  if s.cap ≤ s.cursor.toNat then s.overflow b else s.accept b

/-- RX_BYTE: enabled only in RUN; in a pending phase the channel has no step (R130, R132). -/
def execRxByte (b : Byte) (s : State) : Host.Outcome State Fault Refusal :=
  whenLive s <|
    match s.phase with
    | .run => .next (s.receive b)
    | .linePending => .fault .channelHeld
    | .ovfPending => .fault .channelHeld

/-- LFS_RELEASE: ProtocolViolation in RUN, the end of a pending line, or the end of an overflow, whose held byte is then
processed as a byte arriving at cursor 0 (R140 to R142). -/
def execLfsRelease (s : State) : Host.Outcome State Fault Refusal :=
  whenLive s <|
    match s.phase with
    | .run => faultWith s .protocolViolation .lfsRelease
    | .linePending => .next { s with cursor := 0, phase := .run }
    | .ovfPending =>
      match s.held with
      | some b => .next (s.resume.accept b)
      | none => .fault .heldEmpty

/-- LFS_CLEAR: `cursor <- 0` in every phase (R145). -/
def execLfsClear (s : State) : Host.Outcome State Fault Refusal :=
  whenLive s (.next { s with cursor := 0 })

end Sys2Proof.Machine
end

