-- ==== Sys2Proof/Machine/Dispatch.lean ====
section
/-! DEFINITION. The meaning of every operation: one arm per constructor, each one direct call. -/

namespace Sys2Proof.Machine

/-- What one operation does (40_crc.md, 41_lfs.md, 42_buffer_status.md). -/
def exec (i : Instr) (s : State) : Host.Outcome State Fault Refusal :=
  match i with
  | .nop => Sys2Proof.Machine.execNop s
  | .crcInit => Sys2Proof.Machine.execCrcInit s
  | .crcFeed d => Sys2Proof.Machine.execCrcFeed d s
  | .crcBuf n => Sys2Proof.Machine.execCrcBuf n s
  | .crcRd => Sys2Proof.Machine.execCrcRd s
  | .lfsRelease => Sys2Proof.Machine.execLfsRelease s
  | .lfsClear => Sys2Proof.Machine.execLfsClear s
  | .bufRd a => Sys2Proof.Machine.execBufRd a s
  | .bufWr a d => Sys2Proof.Machine.execBufWr a d s
  | .statusRd => Sys2Proof.Machine.execStatusRd s
  | .lenRd => Sys2Proof.Machine.execLenRd s
  | .rxByte b => Sys2Proof.Machine.execRxByte b s

end Sys2Proof.Machine
end

