-- ==== Sys2Proof/Machine/Turn.lean ====
section
/-! DEFINITION. What a step of the block with its two agents is (00_scope.md R8, 20_memory.md R59): the next turn is
taken, and the word its agent presents is decoded and run. DESIGN CHOICE (log 2, log 3): an agent that has no step at
its turn, or nothing to present, lets the turn pass and keeps its words. -/

namespace Sys2Proof.Machine

/-- A word presented on a port: decoded, then run; an illegal op word raises IllegalOp with no other effect (R76,
R198). -/
def runWord (w : PortWord) (s : State) : Host.Outcome State Fault Refusal :=
  match decode w with
  | .ok i => exec i s
  | .error _ =>
    match w with
    | .op v => whenLive s (.next (s.raise .illegalOp v))
    | .rx b => whenLive s (.next (s.raise .illegalOp (b.zeroExtend 32)))

/-- The channel's turn: its next byte enters where the RX port is ready, and else waits (R130). -/
def channelTurn (s : State) : Host.Outcome State Fault Refusal :=
  if s.rxReady then
    match s.channel with
    | [] => .next s
    | b :: bs => runWord (.rx b) { s with channel := bs }
  else .next s

/-- The controller's turn: its next op word runs, unless the block has faulted (R191, R202). -/
def controllerTurn (s : State) : Host.Outcome State Fault Refusal :=
  match s.fault with
  | some _ => .next s
  | none =>
    match s.controller with
    | [] => .next s
    | w :: ws => runWord (.op w) { s with controller := ws }

/-- One step: the next turn, or no change where no input is presented (R206, R220). -/
def takeTurn (s : State) : Host.Outcome State Fault Refusal :=
  match s.turns with
  | [] => .next s
  | .channel :: ts => channelTurn { s with turns := ts }
  | .controller :: ts => controllerTurn { s with turns := ts }
  | .reset :: ts => .next (State.applyReset { s with turns := ts })

/-- Present a word next: at the head of its port's queue, with that port's agent to move (log 9). -/
def presentNext (s : State) (w : PortWord) : State :=
  match w with
  | .rx b => { s with channel := b :: s.channel, turns := .channel :: s.turns }
  | .op v => { s with controller := v :: s.controller, turns := .controller :: s.turns }

/-- Present the word a table row's bits give: 8 bits on the RX port, 32 on the control port, nothing else (R70). -/
def presentTableWord (s : State) (nbits w : Nat) : State :=
  if nbits = 8 then presentNext s (.rx (BitVec.ofNat 8 w))
  else if nbits = 32 then presentNext s (.op (BitVec.ofNat 32 w))
  else s

end Sys2Proof.Machine
end

