-- ==== Sys2Proof/Machine/Step.lean ====
section
/-! DEFINITION. The step of the block, and the host's way to put one word where the next step takes it. -/

namespace Sys2Proof.Machine

/-- One step of the block with its inputs (00_scope.md R7, R8; 20_memory.md R57, R59). -/
def step (s : State) : Host.Outcome State Fault Refusal := takeTurn s

/-- The state with one word presented next on its port, so that the next step runs it (log 9). -/
def State.withFetchWord (s : State) (nbits w : Nat) : State := presentTableWord s nbits w

end Sys2Proof.Machine
end

