-- ==== Sys2Proof/Safety.lean ====
section
/-! DEFINITION. What counts as a safe state, the invariant of the block (10_state.md R36), and the terms the statements
are written in: bytes held at the start of the buffer, a run of operations, the bytes of a run's RX_BYTE operations. -/

namespace Sys2Proof.Machine

/-- A run is safe while the block has not faulted: the faulted state is a safety violation of the run (R192). -/
abbrev Safe (s : State) : Prop := s.fault = none

/-- The buffer is in its canonical form and lists no cell past the capacity, which is at least 1 (R9, R50). -/
abbrev BufferInv (s : State) : Prop :=
  s.params.wf = true ∧ Memory.wf s.buf = true ∧ Memory.below s.buf s.cap = true

/-- `cursor` and `line_len` hold values 0 to C (R10, R24, R36 item 1). -/
abbrev RangeInv (s : State) : Prop := s.cursor.toNat ≤ s.cap ∧ s.lineLen.toNat ≤ s.cap

/-- A byte is held exactly in OVF_PENDING, and the cursor is 0 then (R36 items 2 and 3). -/
abbrev OverflowInv (s : State) : Prop :=
  (s.held ≠ none ↔ s.phase = .ovfPending) ∧ (s.phase = .ovfPending → s.cursor = 0)

/-- In LINE_PENDING the line has at least its delimiter, that cell is written, and the cursor is on it unless LFS_CLEAR
has moved it to 0 (R36 item 4, log 11). -/
abbrev LineInv (s : State) : Prop :=
  s.phase = .linePending →
    1 ≤ s.lineLen.toNat ∧ s.written (s.lineLen.toNat - 1) = true ∧
      (s.cursor.toNat = s.lineLen.toNat - 1 ∨ s.cursor = 0)

/-- In RUN every cell below the cursor is written (R36 item 6). -/
abbrev RunInv (s : State) : Prop := s.phase = .run → ∀ a, a < s.cursor.toNat → s.written a = true

/-- The invariant of the block (R36). -/
abbrev Inv (s : State) : Prop := BufferInv s ∧ RangeInv s ∧ OverflowInv s ∧ LineInv s ∧ RunInv s

/-- The last byte of a pending line is a delimiter, as long as no BUF_WR has written it (R36 item 5, log 11). -/
abbrev EndsInDelimiter (s : State) : Prop :=
  s.phase = .linePending →
    ∃ b, Memory.read s.buf (s.lineLen.toNat - 1) = some b ∧ isDelim s.params b = true

/-- The buffer holds `bs` from address 0 on, every one of those cells written. -/
abbrev HoldsFirst (s : State) (bs : List Byte) : Prop :=
  ∀ k, k < bs.length → Memory.read s.buf k = bs[k]?

/-- Every word with this OP code that is none of the operation's words raises IllegalOp and changes nothing else (R76). -/
abbrev OtherWordsAreIllegal (op : BitVec 4) (legal : Word → Prop) : Prop :=
  ∀ (w : Word) (s : State), (opFields w).op = op → ¬ legal w → s.fault = none →
    runWord (.op w) s = .next { s with fault := some ⟨.illegalOp, w⟩ }

/-- The operations in order, up to the first that has no step. -/
def runInstrs : List Instr → State → Host.Outcome State Fault Refusal
  | [], s => .next s
  | i :: is, s =>
    match exec i s with
    | .next t => runInstrs is t
    | .fault r => .fault r
    | .refused r => .refused r

/-- The byte an operation brings in on the RX port. -/
def rxByteOf : Instr → Option Byte
  | .rxByte b => some b
  | .nop => none
  | .crcInit => none
  | .crcFeed _ => none
  | .crcBuf _ => none
  | .crcRd => none
  | .lfsRelease => none
  | .lfsClear => none
  | .bufRd _ => none
  | .bufWr _ _ => none
  | .statusRd => none
  | .lenRd => none

/-- The bytes a run of operations receives, in order. -/
def rxBytes (is : List Instr) : List Byte := is.filterMap rxByteOf

/-- A control operation that moves neither the cursor nor the phase and writes no cell. -/
def isBystander : Instr → Bool
  | .nop => true
  | .crcInit => true
  | .crcFeed _ => true
  | .crcBuf _ => true
  | .crcRd => true
  | .bufRd _ => true
  | .statusRd => true
  | .lenRd => true
  | .lfsRelease => false
  | .lfsClear => false
  | .bufWr _ _ => false
  | .rxByte _ => false

/-- The Echo events of received bytes: one each where ECHO is on, none where it is off (R135). -/
def echoes (p : Params) (bs : List Byte) : List Event := if p.echo then bs.map .echo else []

/-- An event is no Echo. -/
def notEcho : Event → Bool
  | .echo _ => false
  | .line _ => true
  | .overflow => true

end Sys2Proof.Machine
end

