-- ==== Sys2Proof/Certificates/Slice0/Obligations.lean ====
section
/-! DEFINITION. The statements for the provers, from the numbered rules of spec/. Where a statement leans on something the
model chose, its docstring names the entry of the assumption log. -/

open Sys2Proof Sys2Proof.Machine

/-! ### Encoding -/

/-- Every operation's word decodes to that operation, at every value of its operands (30_encoding.md R71 to R75, R77). -/
def Obligations.DecodeOfEncode : Prop := ∀ i : Instr, decode (encode i) = .ok i

/-- A word has at most one meaning, and it is the word of that meaning: no bit of a legal word is dropped (R71 to R75). -/
def Obligations.EncodeOfDecode : Prop := ∀ (w : PortWord) (i : Instr), decode w = .ok i → encode i = w

/-- R76: an op word is illegal exactly when OP is reserved, RSV is not 0, or a field its format does not use is not 0 (A is
used by OP 3, 7 and 8, D by OP 2 and 8); every other word selects exactly one row of the opcode map; the step of an
illegal word raises IllegalOp with the word and has no other effect. -/
def Obligations.IllegalWordsFault : Prop :=
  (∀ w : Word, (∃ e, decodeOp w = .error e) ↔
    (0xB ≤ (opFields w).op.toNat ∨ (opFields w).rsv ≠ 0 ∨
      ((opFields w).op ≠ 0x3 ∧ (opFields w).op ≠ 0x7 ∧ (opFields w).op ≠ 0x8 ∧ (opFields w).a ≠ 0) ∨
      ((opFields w).op ≠ 0x2 ∧ (opFields w).op ≠ 0x8 ∧ (opFields w).d ≠ 0))) ∧
  (∀ w : Word, (∃ e, decodeOp w = .error e) ∨ (opTable.filter fun r => r.selects w).length = 1) ∧
  ∀ (s : State) (w : Word) (e : Illegal), s.fault = none → decodeOp w = .error e →
    runWord (.op w) s = .next { s with fault := some ⟨.illegalOp, w⟩ }

/-- At most one row of the opcode map selects a word; the row is that of the decoded operation, and an illegal word
selects none (R74, R76). -/
def Obligations.RowsSelectTheDecodedOperation : Prop :=
  ∀ w : Word,
    match decodeOp w with
    | .ok i => (opTable.filter fun r => r.selects w).map OpRow.mnemonic = [i.mnemonic]
    | .error _ => opTable.filter (fun r => r.selects w) = []

/-- The sample op words of 30_encoding.md section 6 and of 95_test_vectors.md section 2.4 decode as listed there, and an
RX word is RX_BYTE of the byte it is (30_encoding.md section 3, R75). -/
def Obligations.SampleWordsDecode : Prop :=
  decodeOp 0x00000000 = .ok .nop ∧ decodeOp 0x10000000 = .ok .crcInit ∧ decodeOp 0x20000041 = .ok (.crcFeed 0x41) ∧
  decodeOp 0x30000900 = .ok (.crcBuf 9) ∧ decodeOp 0x30FFFF00 = .ok (.crcBuf 65535) ∧ decodeOp 0x40000000 = .ok .crcRd ∧
  decodeOp 0x50000000 = .ok .lfsRelease ∧ decodeOp 0x60000000 = .ok .lfsClear ∧ decodeOp 0x70000200 = .ok (.bufRd 2) ∧
  decodeOp 0x801234AB = .ok (.bufWr 0x1234 0xAB) ∧ decodeOp 0x90000000 = .ok .statusRd ∧ decodeOp 0xA0000000 = .ok .lenRd ∧
  decode (.rx 0x0A) = .ok (.rxByte 0x0A) ∧
  decodeOp 0xB0000000 = .error .reservedOp ∧ decodeOp 0x11000000 = .error .rsvNonzero ∧
  decodeOp 0x10000001 = .error .dNonzero ∧ decodeOp 0x20000141 = .error .aNonzero ∧ decodeOp 0x70000201 = .error .dNonzero

/-! ### The step: agents, reset, a faulted block -/

/-- At the controller's turn a block that has not faulted runs the operation that the controller's next word decodes to,
or faults where the word is illegal (R76); the step takes the turn and the word, the model's own fields (log 2). -/
def Obligations.ControllerStepRunsTheOperation : Prop :=
  ∀ (s : State) (ts : List Turn) (w : Word) (ws : List Word), s.turns = .controller :: ts →
    s.controller = w :: ws → s.fault = none →
      (∀ i, decodeOp w = .ok i → step s = exec i { s with turns := ts, controller := ws }) ∧
      (∀ e, decodeOp w = .error e →
        step s = .next { s with turns := ts, controller := ws, fault := some ⟨.illegalOp, w⟩ })

/-- At the channel's turn a ready block runs RX_BYTE of the channel's next byte; the step takes the turn and the byte,
the model's own fields (log 2). -/
def Obligations.ChannelStepReceivesTheByte : Prop :=
  ∀ (s : State) (ts : List Turn) (b : Byte) (bs : List Byte), s.turns = .channel :: ts → s.channel = b :: bs →
    s.rxReady = true → step s = exec (.rxByte b) { s with turns := ts, channel := bs }

/-- The RX port is ready exactly in RUN without a fault; while it is not, the channel's turn passes and its byte stays
at the head of the channel (R130; that the turn passes is the model's choice, log 3). -/
def Obligations.HeldByteWaitsInTheChannel : Prop :=
  ∀ (s : State) (ts : List Turn), s.turns = .channel :: ts →
    (s.rxReady = true ↔ s.fault = none ∧ s.phase = .run) ∧
    (s.rxReady = false → step s = .next { s with turns := ts }) ∧
    (s.channel = [] → step s = .next { s with turns := ts })

/-- In a faulted block no output is 1 and neither agent has a step: an operation given to `exec` is stuck, and a turn of
either agent passes with nothing changed and no word taken (R191; how the model shows "no step" is log 3 and log 4). -/
def Obligations.FaultedBlockHasNoStep : Prop :=
  ∀ (s : State) (f : FaultRecord), s.fault = some f →
    s.rxReady = false ∧ s.linePendingOut = false ∧ s.ovfPendingOut = false ∧
    (∀ i, exec i s = .fault .blockFaulted) ∧
    ∀ ts, s.turns = .channel :: ts ∨ s.turns = .controller :: ts → step s = .next { s with turns := ts }

/-- RESET is a step of its own, in any state, faulted or not; it sets every piece of state to its reset value and
keeps the parameters (70_reset_and_hazards.md R220). That a RESET turn stands for its assertion is the model's choice
(log 2). -/
def Obligations.ResetSetsEveryPieceOfState : Prop :=
  ∀ (s : State) (ts : List Turn), s.turns = .reset :: ts →
    ∃ t, step s = .next t ∧ t.crc = 0xFFFF ∧ (∀ a, Memory.read t.buf a = none) ∧ (∀ a, t.written a = false) ∧
      t.cursor = 0 ∧ t.phase = .run ∧ t.held = none ∧ t.lineLen = 0 ∧ t.fault = none ∧ t.trace = [] ∧
      t.params = s.params

/-- RESET discards no byte that waits in the channel (R221), and by the model's choice no op word and no turn to come
either (log 7). -/
def Obligations.ResetKeepsWhatWaits : Prop :=
  ∀ (s : State) (ts : List Turn), s.turns = .reset :: ts →
    ∃ t, step s = .next t ∧ t.channel = s.channel ∧ t.controller = s.controller ∧ t.turns = ts

/-- The state after reset of every instance: the values of R35, a ready RX port, and the STATUS word of R33. The state the
host's interface names is one of these, for the parameters it carries (log 1). -/
def Obligations.StateAfterReset : Prop :=
  State.reset = State.resetWith State.reset.params ∧
  ∀ p : Params,
    (State.resetWith p).crc = 0xFFFF ∧ (∀ a, (State.resetWith p).written a = false) ∧ (State.resetWith p).cursor = 0 ∧
    (State.resetWith p).phase = .run ∧ (State.resetWith p).held = none ∧ (State.resetWith p).lineLen = 0 ∧
    (State.resetWith p).fault = none ∧ (State.resetWith p).trace = [] ∧ (State.resetWith p).params = p ∧
    (State.resetWith p).rxReady = true ∧
    (statusWord (State.resetWith p)).toNat =
      (if p.delimMode = .crOrLf then 8 else 0) + (if p.echo = true then 4 else 0)

/-- With no turn to take the state does not change (R206; the idle step is the model's, log 3). -/
def Obligations.IdleStepChangesNothing : Prop := ∀ s : State, s.turns = [] → step s = .next s

/-! ### The CRC generator -/

/-- The table listed in R103 is the one R100's generation rule gives, with the four entries R100 names. -/
def Obligations.TableFollowsItsGenerationRule : Prop :=
  crcTable.length = 256 ∧ (∀ i : Byte, crcEntry i = crcEntryGen i) ∧ crcEntry 0 = 0x0000 ∧ crcEntry 1 = 0x1021 ∧
    crcEntry 0x80 = 0x9188 ∧ crcEntry 0xFF = 0x1EF0

/-- The table-driven step equals eight bit-serial steps, for every CRC value and every byte (R108). -/
def Obligations.CrcStepEqualsBitSerial : Prop := ∀ (c : Half) (b : Byte), crcStep c b = crcBits c b

/-- The check value of R101 and the CRCs of 95_test_vectors.md section 2.2 for no bytes, "ping " and FF FF. -/
def Obligations.CrcCheckValues : Prop :=
  crc16 [0x31, 0x32, 0x33, 0x34, 0x35, 0x36, 0x37, 0x38, 0x39] = 0x29B1 ∧ crc16 [] = 0xFFFF ∧
    crc16 [0x70, 0x69, 0x6E, 0x67, 0x20] = 0x909A ∧ crc16 [0xFF, 0xFF] = 0x0000

/-- R104: the word 0x10000000 alone is CRC_INIT, any other word with OP 1 is illegal; CRC_INIT runs in every phase and
sets `crc` to 0xFFFF and nothing else. -/
def Obligations.CrcInitSetsTheInitialValue : Prop :=
  (∀ w, decodeOp w = .ok .crcInit ↔ w = 0x10000000) ∧
  OtherWordsAreIllegal 0x1 (fun w => w = 0x10000000) ∧
  ∀ s : State, s.fault = none → exec .crcInit s = .next { s with crc := 0xFFFF }

/-- R105: the words with OP 2, RSV 0 and A 0 are CRC_FEED, any other word with OP 2 is illegal; CRC_FEED runs in every
phase and folds its byte into `crc`: shifted left 8 bits, XOR the table entry at the old high byte XOR the byte;
nothing else changes. -/
def Obligations.CrcFeedFoldsOneByte : Prop :=
  (∀ w d, decodeOp w = .ok (.crcFeed d) ↔ w = opWord 0x2 0 d) ∧
  OtherWordsAreIllegal 0x2 (fun w => ∃ d, w = opWord 0x2 0 d) ∧
  ∀ (s : State) (d : Byte), s.fault = none →
    exec (.crcFeed d) s =
      .next { s with crc := (s.crc <<< 8) ^^^ crcTable.getD ((s.crc >>> 8).toNat ^^^ d.toNat) 0 }

/-- R106: the words with OP 3, RSV 0 and D 0 are CRC_BUF, any other word with OP 3 is illegal. Of a length past C it
raises AddrRange; of a length within C with an unwritten cell among its cells, UninitRead; else it sets `crc` to
`crc16` of the bytes in cells 0 to n-1, whatever `crc` held. Nothing else changes. -/
def Obligations.CrcBufComputesTheCrcOfTheBuffer : Prop :=
  (∀ w n, decodeOp w = .ok (.crcBuf n) ↔ w = opWord 0x3 n 0) ∧
  OtherWordsAreIllegal 0x3 (fun w => ∃ n, w = opWord 0x3 n 0) ∧
  ∀ (s : State) (n : Half), s.fault = none →
    (s.cap < n.toNat → exec (.crcBuf n) s = .next { s with fault := some ⟨.addrRange, opWord 0x3 n 0⟩ }) ∧
    (n.toNat ≤ s.cap → (∃ a, a < n.toNat ∧ s.written a = false) →
      exec (.crcBuf n) s = .next { s with fault := some ⟨.uninitRead, opWord 0x3 n 0⟩ }) ∧
    (∀ bs : List Byte, n.toNat ≤ s.cap → bs.length = n.toNat → HoldsFirst s bs →
      exec (.crcBuf n) s = .next { s with crc := bs.foldl crcStep 0xFFFF })

/-- The word 0x40000000 alone is CRC_RD, which runs in every phase, returns `crc` zero-extended to 32 bits and changes
no state of the block (40_crc.md R107). That the result goes to a list of results is the model's choice (log 5). -/
def Obligations.CrcRdReturnsTheRegister : Prop :=
  (∀ w, decodeOp w = .ok .crcRd ↔ w = 0x40000000) ∧
  ∀ s : State, s.fault = none → exec .crcRd s = .next { s with results := s.results ++ [s.crc.zeroExtend 32] }

/-- CRC_BUF over bytes gives the `crc` that CRC_INIT and then CRC_FEED of each of them gives (R109 item 1). -/
def Obligations.CrcBufEqualsInitThenFeeds : Prop :=
  ∀ (s : State) (n : Half) (bs : List Byte), s.fault = none → n.toNat ≤ s.cap → bs.length = n.toNat → HoldsFirst s bs →
    runInstrs (.crcInit :: bs.map .crcFeed) s = exec (.crcBuf n) s

/-! ### The synchronizer -/

/-- R131: the delimiters are LF alone in LF_ONLY, LF and CR in CR_OR_LF, and no other byte. -/
def Obligations.DelimitersOfEachMode : Prop :=
  ∀ (p : Params) (b : Byte),
    (p.delimMode = .lfOnly → (isDelim p b = true ↔ b = 0x0A)) ∧
    (p.delimMode = .crOrLf → (isDelim p b = true ↔ b = 0x0A ∨ b = 0x0D))

/-- R133: any byte that arrives in RUN with the cursor at or past C emits Overflow, is held, drops the line, stores and
echoes nothing, and enters OVF_PENDING. -/
def Obligations.RxByteOverflows : Prop :=
  ∀ (s : State) (b : Byte), s.fault = none → s.phase = .run → s.cap ≤ s.cursor.toNat →
    exec (.rxByte b) s =
      .next { s with trace := s.trace ++ [.overflow], held := some b, cursor := 0, phase := .ovfPending }

/-- R134 and R136: a byte that arrives in RUN with the cursor below C is stored at the cursor, whatever it is, and no
other cell changes; a delimiter records the length, emits Line and enters LINE_PENDING with the cursor kept, any other
byte moves the cursor on by one. The Echo event of R135 comes first. -/
def Obligations.RxByteIsAccepted : Prop :=
  ∀ (s : State) (b : Byte), s.fault = none → s.phase = .run → s.cursor.toNat < s.cap →
    ∃ t, exec (.rxByte b) s = .next t ∧ Memory.read t.buf s.cursor.toNat = some b ∧
      (∀ a, a ≠ s.cursor.toNat → Memory.read t.buf a = Memory.read s.buf a) ∧
      (isDelim s.params b = true →
        t.lineLen.toNat = s.cursor.toNat + 1 ∧
        t = { s with buf := t.buf, lineLen := t.lineLen, phase := .linePending
                     trace := s.trace ++ echoes s.params [b] ++ [.line (s.cursor.toNat + 1)] }) ∧
      (isDelim s.params b = false →
        t.cursor.toNat = s.cursor.toNat + 1 ∧
        t = { s with buf := t.buf, cursor := t.cursor, trace := s.trace ++ echoes s.params [b] })

/-- R140 to R142: the word 0x50000000 alone is LFS_RELEASE, any other word with OP 5 is illegal. In RUN it raises
ProtocolViolation; in LINE_PENDING it sets the cursor to 0 and the phase to RUN; in OVF_PENDING it stores the held
byte at `buf[0]`, echoes it where ECHO is on, and holds nothing afterwards: a delimiter is handed over as Line(1) with
the cursor at 0, any other byte leaves RUN with the cursor at 1. No other cell and nothing else changes. -/
def Obligations.LfsReleaseByPhase : Prop :=
  (∀ w, decodeOp w = .ok .lfsRelease ↔ w = 0x50000000) ∧
  OtherWordsAreIllegal 0x5 (fun w => w = 0x50000000) ∧
  ∀ s : State, s.fault = none →
    (s.phase = .run → exec .lfsRelease s = .next { s with fault := some ⟨.protocolViolation, 0x50000000⟩ }) ∧
    (s.phase = .linePending → exec .lfsRelease s = .next { s with cursor := 0, phase := .run }) ∧
    (∀ b : Byte, s.phase = .ovfPending → s.held = some b →
      ∃ t, exec .lfsRelease s = .next t ∧ Memory.read t.buf 0 = some b ∧
        (∀ a, a ≠ 0 → Memory.read t.buf a = Memory.read s.buf a) ∧
        (isDelim s.params b = true →
          t = { s with buf := t.buf, held := none, cursor := 0, lineLen := 1, phase := .linePending
                       trace := s.trace ++ echoes s.params [b] ++ [.line 1] }) ∧
        (isDelim s.params b = false →
          t = { s with buf := t.buf, held := none, cursor := 1, phase := .run
                       trace := s.trace ++ echoes s.params [b] }))

/-- The held byte is processed exactly as a byte arriving in RUN at cursor 0. -/
def Obligations.HeldByteArrivesAtCursorZero : Prop :=
  ∀ (s : State) (b : Byte), s.params.wf = true → s.fault = none → s.phase = .ovfPending → s.held = some b →
    exec .lfsRelease s = exec (.rxByte b) { s with held := none, cursor := 0, phase := .run }

/-- R145: the word 0x60000000 alone is LFS_CLEAR, any other word with OP 6 is illegal; LFS_CLEAR runs in every phase,
sets the cursor to 0 and changes nothing else. -/
def Obligations.LfsClearResetsTheCursor : Prop :=
  (∀ w, decodeOp w = .ok .lfsClear ↔ w = 0x60000000) ∧
  OtherWordsAreIllegal 0x6 (fun w => w = 0x60000000) ∧
  ∀ s : State, s.fault = none → exec .lfsClear s = .next { s with cursor := 0 }

/-- The events of one step (R197): RX_BYTE emits nothing, Echo, Line, Echo then Line, or Overflow alone; LFS_RELEASE emits
nothing, Echo, Line(1), or Echo then Line(1). -/
def Obligations.EventsOfOneStep : Prop :=
  (∀ (s t : State) (b : Byte), exec (.rxByte b) s = .next t →
    ∃ n, t.trace = s.trace ∨ t.trace = s.trace ++ [.echo b] ∨ t.trace = s.trace ++ [.line n] ∨
      t.trace = s.trace ++ [.echo b, .line n] ∨ t.trace = s.trace ++ [.overflow]) ∧
  ∀ s t : State, exec .lfsRelease s = .next t →
    t.trace = s.trace ∨ t.trace = s.trace ++ [.line 1] ∨
      ∃ b, s.held = some b ∧ (t.trace = s.trace ++ [.echo b] ∨ t.trace = s.trace ++ [.echo b, .line 1])

/-- R146: from RUN with the cursor at 0, k bytes that are no delimiters with k <= C-1 and then a delimiter give exactly one
Line(k+1), with those bytes in order from address 0 and the delimiter after them. -/
def Obligations.FramingOfOneLine : Prop :=
  ∀ (s : State) (bs : List Byte) (d : Byte), s.fault = none → s.phase = .run → s.cursor = 0 → bs.length + 1 ≤ s.cap →
    (∀ b, b ∈ bs → isDelim s.params b = false) → isDelim s.params d = true →
    ∃ t, runInstrs ((bs ++ [d]).map .rxByte) s = .next t ∧ t.phase = .linePending ∧ t.cursor.toNat = bs.length ∧
      t.lineLen.toNat = bs.length + 1 ∧ HoldsFirst t (bs ++ [d]) ∧
      t.trace = s.trace ++ echoes s.params (bs ++ [d]) ++ [.line (bs.length + 1)]

/-- R146 under interleaving (R59): the controller's operations may stand anywhere between the received bytes, as long as
none of them clears the cursor, releases or writes the buffer, and none faults; the same line comes out. -/
def Obligations.FramingUnderInterleaving : Prop :=
  ∀ (s t : State) (is : List Instr) (bs : List Byte) (d : Byte), s.fault = none → s.phase = .run → s.cursor = 0 →
    bs.length + 1 ≤ s.cap → (∀ b, b ∈ bs → isDelim s.params b = false) → isDelim s.params d = true →
    (∀ i, i ∈ is → i.port = .rx ∨ isBystander i = true) → rxBytes is = bs ++ [d] →
    runInstrs is s = .next t → t.fault = none →
    t.phase = .linePending ∧ t.cursor.toNat = bs.length ∧ t.lineLen.toNat = bs.length + 1 ∧ HoldsFirst t (bs ++ [d]) ∧
      t.trace = s.trace ++ echoes s.params (bs ++ [d]) ++ [.line (bs.length + 1)]

/-- R147: a byte b that overflows, the tail after it with its delimiter, and a well-formed line after that, each event
released: the trace gains Overflow, the tail as a line of its own that begins with b, and the line, framed as in R146.
Here b and the tail are no delimiters and fit the buffer. -/
def Obligations.OverflowRecovery : Prop :=
  ∀ (s : State) (b d e : Byte) (tail line : List Byte), s.fault = none → s.phase = .run → s.cap ≤ s.cursor.toNat →
    tail.length + 2 ≤ s.cap → line.length + 1 ≤ s.cap →
    (∀ x, x ∈ b :: tail ++ line → isDelim s.params x = false) → isDelim s.params d = true → isDelim s.params e = true →
    ∃ t, runInstrs ([.rxByte b, .lfsRelease] ++ (tail ++ [d]).map .rxByte ++ [.lfsRelease] ++
        (line ++ [e]).map .rxByte) s = .next t ∧
      t.phase = .linePending ∧ t.held = none ∧ t.lineLen.toNat = line.length + 1 ∧ HoldsFirst t (line ++ [e]) ∧
      t.trace.filter notEcho =
        s.trace.filter notEcho ++ [.overflow, .line (tail.length + 2), .line (line.length + 1)]

/-! ### Buffer access and status -/

/-- R170: the word 0x00000000 alone is NOP, any other word with OP 0 is illegal; NOP runs in every phase and changes
nothing. -/
def Obligations.NopChangesNothing : Prop :=
  (∀ w, decodeOp w = .ok .nop ↔ w = 0x00000000) ∧
  OtherWordsAreIllegal 0x0 (fun w => w = 0x00000000) ∧
  ∀ s : State, s.fault = none → exec .nop s = .next s

/-- The words with OP 7, RSV 0 and D 0 are BUF_RD. At or past C it raises AddrRange, of an unwritten cell UninitRead,
and else returns the byte zero-extended to 32 bits, with no other change (42_buffer_status.md R171). That the result
goes to a list of results is the model's choice (log 5). -/
def Obligations.BufRdReturnsTheByte : Prop :=
  (∀ w a, decodeOp w = .ok (.bufRd a) ↔ w = opWord 0x7 a 0) ∧
  ∀ (s : State) (a : Half), s.fault = none →
    (s.cap ≤ a.toNat → exec (.bufRd a) s = .next { s with fault := some ⟨.addrRange, opWord 0x7 a 0⟩ }) ∧
    (a.toNat < s.cap → s.written a.toNat = false →
      exec (.bufRd a) s = .next { s with fault := some ⟨.uninitRead, opWord 0x7 a 0⟩ }) ∧
    (∀ b : Byte, a.toNat < s.cap → Memory.read s.buf a.toNat = some b →
      exec (.bufRd a) s = .next { s with results := s.results ++ [b.zeroExtend 32] })

/-- R172: the words with OP 8 and RSV 0 are BUF_WR, any other word with OP 8 is illegal. At or past C it raises
AddrRange; else, in every phase, it writes the one cell and marks it written, and changes no other cell and nothing
else. -/
def Obligations.BufWrWritesTheCell : Prop :=
  (∀ w a d, decodeOp w = .ok (.bufWr a d) ↔ w = opWord 0x8 a d) ∧
  OtherWordsAreIllegal 0x8 (fun w => ∃ a d, w = opWord 0x8 a d) ∧
  ∀ (s : State) (a : Half) (d : Byte), s.fault = none →
    (s.cap ≤ a.toNat → exec (.bufWr a d) s = .next { s with fault := some ⟨.addrRange, opWord 0x8 a d⟩ }) ∧
    (a.toNat < s.cap →
      ∃ t, exec (.bufWr a d) s = .next t ∧ t = { s with buf := t.buf } ∧ Memory.read t.buf a.toNat = some d ∧
        t.written a.toNat = true ∧ ∀ k, k ≠ a.toNat → Memory.read t.buf k = Memory.read s.buf k)

/-- The word 0x90000000 alone is STATUS_RD, which runs in every phase and returns PHASE in bits 1:0, ECHO in bit 2,
DMODE in bit 3, CURSOR in bits 23:8 and 0 in bits 7:4 and 31:24, with no other change; once the block has faulted
there is no step to read it with (42_buffer_status.md R173). That the result goes to a list of results, and that
`exec` is stuck in a faulted block, are the model's choices (log 5, log 4). -/
def Obligations.StatusRdReturnsTheStatusWord : Prop :=
  (∀ w, decodeOp w = .ok .statusRd ↔ w = 0x90000000) ∧
  (∀ s : State, s.fault ≠ none → exec .statusRd s = .fault .blockFaulted) ∧
  ∀ s : State, s.fault = none →
    ∃ v : Word, exec .statusRd s = .next { s with results := s.results ++ [v] } ∧
      v.extractLsb' 0 2 = (match s.phase with | .run => 0 | .linePending => 1 | .ovfPending => 2) ∧
      v.getLsbD 2 = s.params.echo ∧ v.getLsbD 3 = decide (s.params.delimMode = .crOrLf) ∧
      v.extractLsb' 4 4 = 0 ∧ v.extractLsb' 8 16 = s.cursor ∧ v.extractLsb' 24 8 = 0

/-- The word 0xA0000000 alone is LEN_RD, which runs in every phase and returns `line_len` zero-extended to 32 bits,
with no other change (42_buffer_status.md R174). That the result goes to a list of results is the model's choice (log
5). -/
def Obligations.LenRdReturnsTheLength : Prop :=
  (∀ w, decodeOp w = .ok .lenRd ↔ w = 0xA0000000) ∧
  ∀ s : State, s.fault = none → exec .lenRd s = .next { s with results := s.results ++ [s.lineLen.zeroExtend 32] }

/-! ### Frames -/

/-- CRC_INIT, CRC_FEED and CRC_BUF change `crc` or the fault record and nothing else: no byte of the buffer, no register of
the synchronizer, no event, no result (40_crc.md, the paragraph before section 1). -/
def Obligations.CrcOperationsFrame : Prop :=
  ∀ (s t : State) (d : Byte) (n : Half),
    exec .crcInit s = .next t ∨ exec (.crcFeed d) s = .next t ∨ exec (.crcBuf n) s = .next t →
    t = { s with crc := t.crc, fault := t.fault } ∧ ∀ a, Memory.read t.buf a = Memory.read s.buf a

/-- The reads, BUF_RD, CRC_RD, STATUS_RD and LEN_RD, have no side effect (R58): they return one result and change nothing
else, or raise a fault and change nothing else; repeated, they return the same result. -/
def Obligations.ReadsHaveNoSideEffect : Prop :=
  ∀ (s t : State) (i : Instr), i = .crcRd ∨ i = .statusRd ∨ i = .lenRd ∨ (∃ a, i = .bufRd a) → exec i s = .next t →
    (∃ v, t = { s with results := s.results ++ [v] } ∧ exec i t = .next { t with results := t.results ++ [v] }) ∨
    (∃ f, t = { s with fault := some f })

/-- LFS_CLEAR and the release of a line move the cursor and the phase and leave every byte of the buffer and everything
else as it was (R140, R145). -/
def Obligations.ClearAndLineReleaseFrame : Prop :=
  ∀ s t : State, exec .lfsClear s = .next t ∨ (s.phase = .linePending ∧ exec .lfsRelease s = .next t) →
    t = { s with cursor := t.cursor, phase := t.phase } ∧ ∀ a, Memory.read t.buf a = Memory.read s.buf a

/-- The cells an operation writes: BUF_WR writes only cell A where A is below C, RX_BYTE only the cell at the cursor where
the cursor is below C, LFS_RELEASE only cell 0 where it releases an overflow; every other cell, and every cell for every
other operation, reads as before (R23, R134, R141, R172). -/
def Obligations.BufferFrameOfEveryOperation : Prop :=
  ∀ (i : Instr) (s t : State) (k : Nat), exec i s = .next t →
    (∀ a d, i = .bufWr a d → a.toNat < s.cap → k ≠ a.toNat) →
    (∀ b, i = .rxByte b → s.cursor.toNat < s.cap → k ≠ s.cursor.toNat) →
    (i = .lfsRelease → s.phase = .ovfPending → k ≠ 0) →
    Memory.read t.buf k = Memory.read s.buf k

/-- Only CRC_INIT, CRC_FEED and CRC_BUF write `crc` (R21). -/
def Obligations.OnlyCrcOperationsWriteCrc : Prop :=
  ∀ (i : Instr) (s t : State), exec i s = .next t → t.crc ≠ s.crc →
    i = .crcInit ∨ (∃ d, i = .crcFeed d) ∨ ∃ n, i = .crcBuf n

/-- `line_len` is written exactly when a Line event is emitted, and then it is the event's length (R27). -/
def Obligations.LineLengthFollowsTheLineEvent : Prop :=
  ∀ (i : Instr) (s t : State), exec i s = .next t →
    (t.lineLen = s.lineLen ∧ ∃ es, t.trace = s.trace ++ es ∧ ∀ n, Event.line n ∉ es) ∨
    (∃ es, t.trace = s.trace ++ es ++ [.line t.lineLen.toNat])

/-- The synchronizer neither reads nor writes `crc` (R21): from states that differ only in `crc`, RX_BYTE, LFS_RELEASE and
LFS_CLEAR go to states that differ only in it, each with its own. -/
def Obligations.SynchronizerIgnoresCrc : Prop :=
  ∀ (i : Instr) (s t : State) (c : Half), (∃ b, i = .rxByte b) ∨ i = .lfsRelease ∨ i = .lfsClear →
    exec i s = .next t → exec i { s with crc := c } = .next { t with crc := c }

/-! ### Invariants and rules of the whole machine -/

/-- Every step keeps the invariant (R36 items 1, 2, 3, 6 and item 4 as log 11 reads it; the canonical form of the buffer; a
legal capacity; 10_state.md R10's ranges). -/
def Obligations.InvKeptByEveryStep : Prop := ∀ s t : State, Inv s → step s = .next t → Inv t

/-- The reset state of every legal instance meets the invariant, and so does the one the interface names. -/
def Obligations.InvAtReset : Prop := (∀ p : Params, p.wf = true → Inv (State.resetWith p)) ∧ Inv State.reset

/-- In LINE_PENDING the last byte of the line is a delimiter until a BUF_WR writes that cell (R36 item 5, log 11). -/
def Obligations.PendingLineEndsInItsDelimiter : Prop :=
  ∀ (i : Instr) (s t : State), EndsInDelimiter s → exec i s = .next t →
    (∀ a d, i = .bufWr a d → a.toNat ≠ s.lineLen.toNat - 1) → EndsInDelimiter t

/-- No step changes the parameters (R9, R34, R220). -/
def Obligations.ParametersNeverChange : Prop := ∀ s t : State, step s = .next t → t.params = s.params

/-- Every step ends in a next state (R207: the block itself never loops). The premise is the invariant. -/
def Obligations.EveryStepAnswersANextState : Prop := ∀ s : State, Inv s → ∃ t, step s = .next t

/-- R28: once there is a fault record it stays, and only a RESET turn removes it. -/
def Obligations.FaultStaysUntilReset : Prop :=
  ∀ (s t : State) (f : FaultRecord), s.fault = some f → step s = .next t →
    t.fault = some f ∨ ∃ ts, s.turns = .reset :: ts ∧ t.fault = none

/-- R13: a word whose step enters the fault state changes nothing else, whatever the word, and the record holds that op
word (R190, R191). -/
def Obligations.FaultsArePrecise : Prop :=
  ∀ (w : PortWord) (s t : State) (f : FaultRecord), runWord w s = .next t → t.fault = some f →
    t = { s with fault := some f } ∧ w = .op f.word

/-- Which operation raises which fault, and when (R190): AddrRange, UninitRead and ProtocolViolation under the conditions
of the table, checked in the order of R198, and no other fault from a decoded operation. -/
def Obligations.FaultsOfEachOperation : Prop :=
  ∀ (i : Instr) (s t : State) (f : FaultRecord), exec i s = .next t → t.fault = some f →
    (∃ a, (i = .bufRd a ∨ ∃ d, i = .bufWr a d) ∧ s.cap ≤ a.toNat ∧ f.reason = .addrRange) ∨
    (∃ n, i = .crcBuf n ∧ s.cap < n.toNat ∧ f.reason = .addrRange) ∨
    (∃ a, i = .bufRd a ∧ a.toNat < s.cap ∧ s.written a.toNat = false ∧ f.reason = .uninitRead) ∨
    (∃ n a, i = .crcBuf n ∧ n.toNat ≤ s.cap ∧ a < n.toNat ∧ s.written a = false ∧ f.reason = .uninitRead) ∨
    (i = .lfsRelease ∧ s.phase = .run ∧ f.reason = .protocolViolation)

/-- RX_BYTE, NOP, CRC_INIT, CRC_FEED, CRC_RD, LFS_CLEAR, STATUS_RD and LEN_RD never fault (R190). -/
def Obligations.OperationsThatNeverFault : Prop :=
  ∀ (i : Instr) (s t : State), exec i s = .next t →
    (∃ b, i = .rxByte b) ∨ i = .nop ∨ i = .crcInit ∨ (∃ d, i = .crcFeed d) ∨ i = .crcRd ∨ i = .lfsClear ∨
      i = .statusRd ∨ i = .lenRd →
    t.fault = none

/-- The block only appends to the trace, until RESET empties it (R29). -/
def Obligations.TraceOnlyGrows : Prop :=
  ∀ s t : State, step s = .next t →
    (∃ es, t.trace = s.trace ++ es) ∨ ∃ ts, s.turns = .reset :: ts ∧ t.trace = []

/-- A cell written once stays written until reset (R53). -/
def Obligations.WrittenCellStaysReadable : Prop :=
  ∀ (s t : State) (a : Nat), s.written a = true → step s = .next t →
    t.written a = true ∨ ∃ ts, s.turns = .reset :: ts

/-- Nothing ends a pending phase but LFS_RELEASE and RESET (R195). -/
def Obligations.PendingEndsOnlyByRelease : Prop :=
  ∀ s t : State, s.phase ≠ .run → step s = .next t →
    t.phase = s.phase ∨ (∃ ts, s.turns = .reset :: ts) ∨
      ∃ ts ws, s.turns = .controller :: ts ∧ s.controller = 0x50000000 :: ws

/-- R32: the three level outputs, each a function of the state, of which at most one is 1. -/
def Obligations.LevelOutputsOfTheState : Prop :=
  ∀ s : State,
    (s.rxReady = true ↔ s.phase = .run ∧ s.fault = none) ∧
    (s.linePendingOut = true ↔ s.phase = .linePending ∧ s.fault = none) ∧
    (s.ovfPendingOut = true ↔ s.phase = .ovfPending ∧ s.fault = none) ∧
    ¬(s.linePendingOut = true ∧ s.ovfPendingOut = true)
end

