-- ==== Sys2Proof/Laws/Decode.lean ====
section
/-! SUPPORT. The op word as a number, and its fields read back (30_encoding.md R71). -/

namespace Sys2Proof

theorem toNat_bitAppend {n m : Nat} (x : BitVec n) (y : BitVec m) : (x ++ y).toNat = x.toNat * 2 ^ m + y.toNat := by
  rw [BitVec.toNat_append, ← Nat.shiftLeft_add_eq_or_of_lt y.isLt, Nat.shiftLeft_eq]

/-- OP weighs 2^28, A weighs 2^8, D weighs 1, and RSV is 0. -/
theorem opWord_toNat (op : BitVec 4) (a : Half) (d : Byte) :
    (opWord op a d).toNat = op.toNat * 2 ^ 28 + (a.toNat * 2 ^ 8 + d.toNat) := by
  rw [opWord, toNat_bitAppend, toNat_bitAppend, toNat_bitAppend]
  simp

/-- Each bit of an op word, from the field it lies in. -/
theorem opWord_getLsbD (op : BitVec 4) (a : Half) (d : Byte) (i : Nat) :
    (opWord op a d).getLsbD i =
      if i < 8 then d.getLsbD i else if i < 24 then a.getLsbD (i - 8)
      else if i < 28 then false else op.getLsbD (i - 28) := by
  have h : (opWord op a d).getLsbD i = (op ++ (0#4 ++ (a ++ d)) : BitVec (4 + (4 + (16 + 8)))).getLsbD i := rfl
  rw [h, BitVec.getLsbD_append, BitVec.getLsbD_append, BitVec.getLsbD_append]
  split <;> split <;> (try split) <;> first | omega | simp_all

/-- The fields of an encoded op word are the ones it was made of. -/
theorem opFields_opWord (op : BitVec 4) (a : Half) (d : Byte) : opFields (opWord op a d) = ⟨op, 0, a, d⟩ := by
  have h := opWord_toNat op a d
  have ha := a.isLt
  have hd := d.isLt
  have h0 : (0 : BitVec 4).toNat = 0 := rfl
  simp only [opFields, OpFields.mk.injEq]
  refine ⟨?_, ?_, ?_, ?_⟩ <;> apply BitVec.eq_of_toNat_eq <;>
    simp only [BitVec.extractLsb'_toNat, h, h0, Nat.shiftRight_eq_div_pow] <;> omega

/-- An op word is its four fields in order. -/
theorem toNat_eq_opFields (w : Word) :
    w.toNat = (opFields w).op.toNat * 2 ^ 28 + (opFields w).rsv.toNat * 2 ^ 24 + (opFields w).a.toNat * 2 ^ 8 +
      (opFields w).d.toNat := by
  have := w.isLt
  simp only [opFields, BitVec.extractLsb'_toNat, Nat.shiftRight_eq_div_pow]
  omega

/-- An op word with RSV = 0 is the word made of its fields. -/
theorem opWord_opFields {w : Word} (h : (opFields w).rsv = 0) :
    opWord (opFields w).op (opFields w).a (opFields w).d = w := by
  apply BitVec.eq_of_toNat_eq
  have h0 : (opFields w).rsv.toNat = 0 := by rw [h]; rfl
  rw [opWord_toNat, toNat_eq_opFields w, h0]
  omega

end Sys2Proof
end

