-- ==== Sys2Proof/Laws/State.lean ====
section
/-! SUPPORT. The fields of the state after each named update: one lemma per field per update, so that no proof unfolds a
record update. -/

namespace Sys2Proof.Machine

@[simp] theorem State.raise_params (s : State) (r : FaultReason) (w : Word) : (s.raise r w).params = s.params := rfl
@[simp] theorem State.raise_crc (s : State) (r : FaultReason) (w : Word) : (s.raise r w).crc = s.crc := rfl
@[simp] theorem State.raise_buf (s : State) (r : FaultReason) (w : Word) : (s.raise r w).buf = s.buf := rfl
@[simp] theorem State.raise_cursor (s : State) (r : FaultReason) (w : Word) : (s.raise r w).cursor = s.cursor := rfl
@[simp] theorem State.raise_phase (s : State) (r : FaultReason) (w : Word) : (s.raise r w).phase = s.phase := rfl
@[simp] theorem State.raise_held (s : State) (r : FaultReason) (w : Word) : (s.raise r w).held = s.held := rfl
@[simp] theorem State.raise_lineLen (s : State) (r : FaultReason) (w : Word) : (s.raise r w).lineLen = s.lineLen := rfl
@[simp] theorem State.raise_fault (s : State) (r : FaultReason) (w : Word) : (s.raise r w).fault = some ⟨r, w⟩ := rfl
@[simp] theorem State.raise_trace (s : State) (r : FaultReason) (w : Word) : (s.raise r w).trace = s.trace := rfl
@[simp] theorem State.raise_channel (s : State) (r : FaultReason) (w : Word) : (s.raise r w).channel = s.channel := rfl
@[simp] theorem State.raise_controller (s : State) (r : FaultReason) (w : Word) : (s.raise r w).controller = s.controller := rfl
@[simp] theorem State.raise_turns (s : State) (r : FaultReason) (w : Word) : (s.raise r w).turns = s.turns := rfl
@[simp] theorem State.raise_results (s : State) (r : FaultReason) (w : Word) : (s.raise r w).results = s.results := rfl

@[simp] theorem State.emit_params (s : State) (e : Event) : (s.emit e).params = s.params := rfl
@[simp] theorem State.emit_crc (s : State) (e : Event) : (s.emit e).crc = s.crc := rfl
@[simp] theorem State.emit_buf (s : State) (e : Event) : (s.emit e).buf = s.buf := rfl
@[simp] theorem State.emit_cursor (s : State) (e : Event) : (s.emit e).cursor = s.cursor := rfl
@[simp] theorem State.emit_phase (s : State) (e : Event) : (s.emit e).phase = s.phase := rfl
@[simp] theorem State.emit_held (s : State) (e : Event) : (s.emit e).held = s.held := rfl
@[simp] theorem State.emit_lineLen (s : State) (e : Event) : (s.emit e).lineLen = s.lineLen := rfl
@[simp] theorem State.emit_fault (s : State) (e : Event) : (s.emit e).fault = s.fault := rfl
@[simp] theorem State.emit_trace (s : State) (e : Event) : (s.emit e).trace = s.trace ++ [e] := rfl
@[simp] theorem State.emit_channel (s : State) (e : Event) : (s.emit e).channel = s.channel := rfl
@[simp] theorem State.emit_controller (s : State) (e : Event) : (s.emit e).controller = s.controller := rfl
@[simp] theorem State.emit_turns (s : State) (e : Event) : (s.emit e).turns = s.turns := rfl
@[simp] theorem State.emit_results (s : State) (e : Event) : (s.emit e).results = s.results := rfl

@[simp] theorem State.giveResult_params (s : State) (v : Word) : (s.giveResult v).params = s.params := rfl
@[simp] theorem State.giveResult_crc (s : State) (v : Word) : (s.giveResult v).crc = s.crc := rfl
@[simp] theorem State.giveResult_buf (s : State) (v : Word) : (s.giveResult v).buf = s.buf := rfl
@[simp] theorem State.giveResult_cursor (s : State) (v : Word) : (s.giveResult v).cursor = s.cursor := rfl
@[simp] theorem State.giveResult_phase (s : State) (v : Word) : (s.giveResult v).phase = s.phase := rfl
@[simp] theorem State.giveResult_held (s : State) (v : Word) : (s.giveResult v).held = s.held := rfl
@[simp] theorem State.giveResult_lineLen (s : State) (v : Word) : (s.giveResult v).lineLen = s.lineLen := rfl
@[simp] theorem State.giveResult_fault (s : State) (v : Word) : (s.giveResult v).fault = s.fault := rfl
@[simp] theorem State.giveResult_trace (s : State) (v : Word) : (s.giveResult v).trace = s.trace := rfl
@[simp] theorem State.giveResult_channel (s : State) (v : Word) : (s.giveResult v).channel = s.channel := rfl
@[simp] theorem State.giveResult_controller (s : State) (v : Word) : (s.giveResult v).controller = s.controller := rfl
@[simp] theorem State.giveResult_turns (s : State) (v : Word) : (s.giveResult v).turns = s.turns := rfl
@[simp] theorem State.giveResult_results (s : State) (v : Word) : (s.giveResult v).results = s.results ++ [v] := rfl

@[simp] theorem State.storeByte_params (s : State) (a : Nat) (b : Byte) : (s.storeByte a b).params = s.params := rfl
@[simp] theorem State.storeByte_crc (s : State) (a : Nat) (b : Byte) : (s.storeByte a b).crc = s.crc := rfl
@[simp] theorem State.storeByte_buf (s : State) (a : Nat) (b : Byte) : (s.storeByte a b).buf = Memory.write s.buf a b := rfl
@[simp] theorem State.storeByte_cursor (s : State) (a : Nat) (b : Byte) : (s.storeByte a b).cursor = s.cursor := rfl
@[simp] theorem State.storeByte_phase (s : State) (a : Nat) (b : Byte) : (s.storeByte a b).phase = s.phase := rfl
@[simp] theorem State.storeByte_held (s : State) (a : Nat) (b : Byte) : (s.storeByte a b).held = s.held := rfl
@[simp] theorem State.storeByte_lineLen (s : State) (a : Nat) (b : Byte) : (s.storeByte a b).lineLen = s.lineLen := rfl
@[simp] theorem State.storeByte_fault (s : State) (a : Nat) (b : Byte) : (s.storeByte a b).fault = s.fault := rfl
@[simp] theorem State.storeByte_trace (s : State) (a : Nat) (b : Byte) : (s.storeByte a b).trace = s.trace := rfl
@[simp] theorem State.storeByte_channel (s : State) (a : Nat) (b : Byte) : (s.storeByte a b).channel = s.channel := rfl
@[simp] theorem State.storeByte_controller (s : State) (a : Nat) (b : Byte) : (s.storeByte a b).controller = s.controller := rfl
@[simp] theorem State.storeByte_turns (s : State) (a : Nat) (b : Byte) : (s.storeByte a b).turns = s.turns := rfl
@[simp] theorem State.storeByte_results (s : State) (a : Nat) (b : Byte) : (s.storeByte a b).results = s.results := rfl

@[simp] theorem State.setCrc_params (s : State) (c : Half) : (s.setCrc c).params = s.params := rfl
@[simp] theorem State.setCrc_crc (s : State) (c : Half) : (s.setCrc c).crc = c := rfl
@[simp] theorem State.setCrc_buf (s : State) (c : Half) : (s.setCrc c).buf = s.buf := rfl
@[simp] theorem State.setCrc_cursor (s : State) (c : Half) : (s.setCrc c).cursor = s.cursor := rfl
@[simp] theorem State.setCrc_phase (s : State) (c : Half) : (s.setCrc c).phase = s.phase := rfl
@[simp] theorem State.setCrc_held (s : State) (c : Half) : (s.setCrc c).held = s.held := rfl
@[simp] theorem State.setCrc_lineLen (s : State) (c : Half) : (s.setCrc c).lineLen = s.lineLen := rfl
@[simp] theorem State.setCrc_fault (s : State) (c : Half) : (s.setCrc c).fault = s.fault := rfl
@[simp] theorem State.setCrc_trace (s : State) (c : Half) : (s.setCrc c).trace = s.trace := rfl
@[simp] theorem State.setCrc_channel (s : State) (c : Half) : (s.setCrc c).channel = s.channel := rfl
@[simp] theorem State.setCrc_controller (s : State) (c : Half) : (s.setCrc c).controller = s.controller := rfl
@[simp] theorem State.setCrc_turns (s : State) (c : Half) : (s.setCrc c).turns = s.turns := rfl
@[simp] theorem State.setCrc_results (s : State) (c : Half) : (s.setCrc c).results = s.results := rfl

@[simp] theorem State.handOver_params (s : State) : (s.handOver).params = s.params := rfl
@[simp] theorem State.handOver_crc (s : State) : (s.handOver).crc = s.crc := rfl
@[simp] theorem State.handOver_buf (s : State) : (s.handOver).buf = s.buf := rfl
@[simp] theorem State.handOver_cursor (s : State) : (s.handOver).cursor = s.cursor := rfl
@[simp] theorem State.handOver_phase (s : State) : (s.handOver).phase = .linePending := rfl
@[simp] theorem State.handOver_held (s : State) : (s.handOver).held = s.held := rfl
@[simp] theorem State.handOver_lineLen (s : State) : (s.handOver).lineLen = s.cursor + 1 := rfl
@[simp] theorem State.handOver_fault (s : State) : (s.handOver).fault = s.fault := rfl
@[simp] theorem State.handOver_trace (s : State) : (s.handOver).trace = s.trace ++ [.line (s.cursor.toNat + 1)] := rfl
@[simp] theorem State.handOver_channel (s : State) : (s.handOver).channel = s.channel := rfl
@[simp] theorem State.handOver_controller (s : State) : (s.handOver).controller = s.controller := rfl
@[simp] theorem State.handOver_turns (s : State) : (s.handOver).turns = s.turns := rfl
@[simp] theorem State.handOver_results (s : State) : (s.handOver).results = s.results := rfl

@[simp] theorem State.advance_params (s : State) : (s.advance).params = s.params := rfl
@[simp] theorem State.advance_crc (s : State) : (s.advance).crc = s.crc := rfl
@[simp] theorem State.advance_buf (s : State) : (s.advance).buf = s.buf := rfl
@[simp] theorem State.advance_cursor (s : State) : (s.advance).cursor = s.cursor + 1 := rfl
@[simp] theorem State.advance_phase (s : State) : (s.advance).phase = s.phase := rfl
@[simp] theorem State.advance_held (s : State) : (s.advance).held = s.held := rfl
@[simp] theorem State.advance_lineLen (s : State) : (s.advance).lineLen = s.lineLen := rfl
@[simp] theorem State.advance_fault (s : State) : (s.advance).fault = s.fault := rfl
@[simp] theorem State.advance_trace (s : State) : (s.advance).trace = s.trace := rfl
@[simp] theorem State.advance_channel (s : State) : (s.advance).channel = s.channel := rfl
@[simp] theorem State.advance_controller (s : State) : (s.advance).controller = s.controller := rfl
@[simp] theorem State.advance_turns (s : State) : (s.advance).turns = s.turns := rfl
@[simp] theorem State.advance_results (s : State) : (s.advance).results = s.results := rfl

@[simp] theorem State.overflow_params (s : State) (b : Byte) : (s.overflow b).params = s.params := rfl
@[simp] theorem State.overflow_crc (s : State) (b : Byte) : (s.overflow b).crc = s.crc := rfl
@[simp] theorem State.overflow_buf (s : State) (b : Byte) : (s.overflow b).buf = s.buf := rfl
@[simp] theorem State.overflow_cursor (s : State) (b : Byte) : (s.overflow b).cursor = 0 := rfl
@[simp] theorem State.overflow_phase (s : State) (b : Byte) : (s.overflow b).phase = .ovfPending := rfl
@[simp] theorem State.overflow_held (s : State) (b : Byte) : (s.overflow b).held = some b := rfl
@[simp] theorem State.overflow_lineLen (s : State) (b : Byte) : (s.overflow b).lineLen = s.lineLen := rfl
@[simp] theorem State.overflow_fault (s : State) (b : Byte) : (s.overflow b).fault = s.fault := rfl
@[simp] theorem State.overflow_trace (s : State) (b : Byte) : (s.overflow b).trace = s.trace ++ [.overflow] := rfl
@[simp] theorem State.overflow_channel (s : State) (b : Byte) : (s.overflow b).channel = s.channel := rfl
@[simp] theorem State.overflow_controller (s : State) (b : Byte) : (s.overflow b).controller = s.controller := rfl
@[simp] theorem State.overflow_turns (s : State) (b : Byte) : (s.overflow b).turns = s.turns := rfl
@[simp] theorem State.overflow_results (s : State) (b : Byte) : (s.overflow b).results = s.results := rfl

@[simp] theorem State.resume_params (s : State) : (s.resume).params = s.params := rfl
@[simp] theorem State.resume_crc (s : State) : (s.resume).crc = s.crc := rfl
@[simp] theorem State.resume_buf (s : State) : (s.resume).buf = s.buf := rfl
@[simp] theorem State.resume_cursor (s : State) : (s.resume).cursor = 0 := rfl
@[simp] theorem State.resume_phase (s : State) : (s.resume).phase = .run := rfl
@[simp] theorem State.resume_held (s : State) : (s.resume).held = none := rfl
@[simp] theorem State.resume_lineLen (s : State) : (s.resume).lineLen = s.lineLen := rfl
@[simp] theorem State.resume_fault (s : State) : (s.resume).fault = s.fault := rfl
@[simp] theorem State.resume_trace (s : State) : (s.resume).trace = s.trace := rfl
@[simp] theorem State.resume_channel (s : State) : (s.resume).channel = s.channel := rfl
@[simp] theorem State.resume_controller (s : State) : (s.resume).controller = s.controller := rfl
@[simp] theorem State.resume_turns (s : State) : (s.resume).turns = s.turns := rfl
@[simp] theorem State.resume_results (s : State) : (s.resume).results = s.results := rfl

/-! ECHO: an event or nothing. -/

@[simp] theorem State.echoByte_params (s : State) (b : Byte) : (s.echoByte b).params = s.params := by
  unfold State.echoByte; split <;> rfl
@[simp] theorem State.echoByte_crc (s : State) (b : Byte) : (s.echoByte b).crc = s.crc := by
  unfold State.echoByte; split <;> rfl
@[simp] theorem State.echoByte_buf (s : State) (b : Byte) : (s.echoByte b).buf = s.buf := by
  unfold State.echoByte; split <;> rfl
@[simp] theorem State.echoByte_cursor (s : State) (b : Byte) : (s.echoByte b).cursor = s.cursor := by
  unfold State.echoByte; split <;> rfl
@[simp] theorem State.echoByte_phase (s : State) (b : Byte) : (s.echoByte b).phase = s.phase := by
  unfold State.echoByte; split <;> rfl
@[simp] theorem State.echoByte_held (s : State) (b : Byte) : (s.echoByte b).held = s.held := by
  unfold State.echoByte; split <;> rfl
@[simp] theorem State.echoByte_lineLen (s : State) (b : Byte) : (s.echoByte b).lineLen = s.lineLen := by
  unfold State.echoByte; split <;> rfl
@[simp] theorem State.echoByte_fault (s : State) (b : Byte) : (s.echoByte b).fault = s.fault := by
  unfold State.echoByte; split <;> rfl
@[simp] theorem State.echoByte_trace (s : State) (b : Byte) :
    (s.echoByte b).trace = s.trace ++ echoes s.params [b] := by
  cases h : s.params.echo <;> simp [State.echoByte, echoes, h]
@[simp] theorem State.echoByte_channel (s : State) (b : Byte) : (s.echoByte b).channel = s.channel := by
  unfold State.echoByte; split <;> rfl
@[simp] theorem State.echoByte_controller (s : State) (b : Byte) : (s.echoByte b).controller = s.controller := by
  unfold State.echoByte; split <;> rfl
@[simp] theorem State.echoByte_turns (s : State) (b : Byte) : (s.echoByte b).turns = s.turns := by
  unfold State.echoByte; split <;> rfl
@[simp] theorem State.echoByte_results (s : State) (b : Byte) : (s.echoByte b).results = s.results := by
  unfold State.echoByte; split <;> rfl

/-! RESET. -/

@[simp] theorem State.applyReset_params (s : State) : s.applyReset.params = s.params := rfl
@[simp] theorem State.applyReset_crc (s : State) : s.applyReset.crc = crcInitial := rfl
@[simp] theorem State.applyReset_buf (s : State) : s.applyReset.buf = [] := rfl
@[simp] theorem State.applyReset_cursor (s : State) : s.applyReset.cursor = 0 := rfl
@[simp] theorem State.applyReset_phase (s : State) : s.applyReset.phase = .run := rfl
@[simp] theorem State.applyReset_held (s : State) : s.applyReset.held = none := rfl
@[simp] theorem State.applyReset_lineLen (s : State) : s.applyReset.lineLen = 0 := rfl
@[simp] theorem State.applyReset_fault (s : State) : s.applyReset.fault = none := rfl
@[simp] theorem State.applyReset_trace (s : State) : s.applyReset.trace = [] := rfl
@[simp] theorem State.applyReset_channel (s : State) : s.applyReset.channel = s.channel := rfl
@[simp] theorem State.applyReset_controller (s : State) : s.applyReset.controller = s.controller := rfl
@[simp] theorem State.applyReset_turns (s : State) : s.applyReset.turns = s.turns := rfl
@[simp] theorem State.applyReset_results (s : State) : s.applyReset.results = [] := rfl

end Sys2Proof.Machine
end

