-- ==== Sys2Proof/Laws/Memory.lean ====
section
/-! SUPPORT. The laws of the line buffer: a read after a write, the canonical form kept, and what a read of the first
cells answers. -/

namespace Sys2Proof.Machine

theorem Memory.read_write_same (m : Memory) (a : Nat) (v : Byte) :
    Memory.read (Memory.write m a v) a = some v := by
  induction m with
  | nil => simp [Memory.write, Memory.read]
  | cons c m ih =>
    unfold Memory.write
    split
    · simp [Memory.read]
    · split
      · simp [Memory.read]
      · simp [Memory.read, *]

theorem Memory.read_write_other (m : Memory) {a k : Nat} (v : Byte) (h : k ≠ a) :
    Memory.read (Memory.write m a v) k = Memory.read m k := by
  induction m with
  | nil => simp [Memory.write, Memory.read, Ne.symm h]
  | cons c m ih =>
    unfold Memory.write
    split
    · simp [Memory.read, Ne.symm h]
    · split
      · subst a
        simp [Memory.read, Ne.symm h]
      · simp [Memory.read, ih]

theorem Memory.read_write (m : Memory) (a k : Nat) (v : Byte) :
    Memory.read (Memory.write m a v) k = if k = a then some v else Memory.read m k := by
  split
  · subst k
    exact Memory.read_write_same m a v
  · exact Memory.read_write_other m v ‹_›

/-- A write may put a new first cell in front, and it lies below every cell it precedes. -/
theorem Memory.wf_cons_write {c : Host.Cell} {m : Memory} {a : Nat} {v : Byte} (h : Memory.wf (c :: m) = true)
    (hc : c.1 < a) (hm : Memory.wf (Memory.write m a v) = true) : Memory.wf (c :: Memory.write m a v) = true := by
  cases m with
  | nil => simp [Memory.write, Memory.wf, hc]
  | cons d m =>
    simp only [Memory.wf, Bool.and_eq_true, decide_eq_true_eq] at h
    unfold Memory.write at hm ⊢
    split at hm <;> rename_i h1
    · simp [Memory.wf, hc, h1, h.2]
    · split at hm <;> rename_i h2
      · simpa [h2, Memory.wf, hc] using hm
      · simpa [h2, h1, Memory.wf, h.1] using hm

/-- A write keeps the canonical form. -/
theorem Memory.write_wf {m : Memory} (a : Nat) (v : Byte) (h : Memory.wf m = true) :
    Memory.wf (Memory.write m a v) = true := by
  induction m with
  | nil => rfl
  | cons c m ih =>
    have hm : Memory.wf m = true := by
      cases m with
      | nil => rfl
      | cons d m => simp_all [Memory.wf]
    unfold Memory.write
    split
    · simp [Memory.wf, *]
    · split
      · cases m with
        | nil => rfl
        | cons d m => simp_all [Memory.wf]
      · exact Memory.wf_cons_write h (by omega) (ih hm)

/-- A write inside the capacity lists no cell outside it. -/
theorem Memory.write_below {m : Memory} {n a : Nat} (v : Byte) (h : Memory.below m n = true) (ha : a < n) :
    Memory.below (Memory.write m a v) n = true := by
  induction m with
  | nil => simp [Memory.write, Memory.below, ha]
  | cons c m ih =>
    have hc : c.1 < n ∧ Memory.below m n = true := by simpa [Memory.below] using h
    unfold Memory.write
    split
    · simpa [Memory.below, ha] using h
    · split
      · simpa [Memory.below, ha] using hc.2
      · simpa [Memory.below] using ⟨hc.1, by simpa [Memory.below] using ih hc.2⟩

/-- The first cells read as `bs` exactly when each of them reads as its byte. -/
theorem Memory.readFirst_eq_some (m : Memory) (n : Nat) (bs : List Byte) :
    Memory.readFirst m n = some bs ↔ bs.length = n ∧ ∀ k, k < n → Memory.read m k = bs[k]? := by
  induction n generalizing bs with
  | zero => cases bs <;> simp [Memory.readFirst]
  | succ n ih =>
    unfold Memory.readFirst
    constructor
    · intro h
      split at h
      · rename_i cs b h1 h2
        obtain ⟨hl, hr⟩ := (ih cs).1 h1
        cases h
        refine ⟨by simp [hl], fun k hk => ?_⟩
        rcases Nat.lt_succ_iff_lt_or_eq.1 hk with hk | rfl
        · rw [hr k hk, List.getElem?_append_left (by omega)]
        · rw [h2, List.getElem?_append_right (by omega)]
          simp [hl]
      · cases h
    · rintro ⟨hl, hr⟩
      have hne : bs ≠ [] := by intro h; simp [h] at hl
      have hsplit : bs = bs.dropLast ++ [bs.getLast hne] := (List.dropLast_append_getLast hne).symm
      have h1 : Memory.readFirst m n = some bs.dropLast := by
        refine (ih _).2 ⟨by simp [hl], fun k hk => ?_⟩
        rw [hr k (by omega), List.getElem?_dropLast]
        simp [hl, hk]
      have h2 : Memory.read m n = some (bs.getLast hne) := by
        rw [hr n (by omega), List.getLast_eq_getElem]
        simp [hl]
      rw [h1, h2]
      simpa using hsplit.symm

/-- A cell among the first `n` that has not been written makes their read answer nothing, and nothing else does. -/
theorem Memory.readFirst_eq_none (m : Memory) (n : Nat) :
    Memory.readFirst m n = none ↔ ∃ k, k < n ∧ Memory.read m k = none := by
  induction n with
  | zero => simp [Memory.readFirst]
  | succ n ih =>
    unfold Memory.readFirst
    constructor
    · intro h
      cases h1 : Memory.readFirst m n with
      | none =>
        obtain ⟨k, hk, hr⟩ := ih.1 h1
        exact ⟨k, by omega, hr⟩
      | some bs =>
        cases h2 : Memory.read m n with
        | none => exact ⟨n, by omega, h2⟩
        | some b => simp [h1, h2] at h
    · rintro ⟨k, hk, hr⟩
      rcases Nat.lt_succ_iff_lt_or_eq.1 hk with hk | rfl
      · rw [ih.2 ⟨k, hk, hr⟩]
      · rw [hr]
        split <;> simp_all

/-- The reset buffer is canonical. -/
theorem Memory.reset_wf : Memory.wf State.reset.buf = true := rfl

end Sys2Proof.Machine
end

