-- ==== Sys2Proof/Laws/Ops.lean ====
section
/-! SUPPORT. What each shared operation can do, said once: the operand forms, the guard of a live block, accepting and
receiving a byte, and the STATUS word as a number. -/

namespace Sys2Proof.Machine

theorem whenLive_of_live {s : State} {o : Host.Outcome State Fault Refusal} (h : s.fault = none) :
    whenLive s o = o := by
  simp [whenLive, h]

theorem whenLive_of_faulted {s : State} {o : Host.Outcome State Fault Refusal} (h : s.fault ≠ none) :
    whenLive s o = .fault .blockFaulted := by
  unfold whenLive
  split
  · exact absurd ‹_› h
  · rfl

/-- A guarded operation that answers a next state ran in a live block. -/
theorem whenLive_next {s t : State} {o : Host.Outcome State Fault Refusal} (h : whenLive s o = .next t) :
    s.fault = none ∧ o = .next t := by
  unfold whenLive at h
  split at h
  · exact ⟨‹_›, h⟩
  · cases h

/-- The three answers of an address operand with its byte. -/
theorem byteOperand_cases (s : State) (a : Half) :
    (s.cap ≤ a.toNat ∧ byteOperand s a = .error .addrRange) ∨
    (a.toNat < s.cap ∧ Memory.read s.buf a.toNat = none ∧ byteOperand s a = .error .uninitRead) ∨
    (∃ b, a.toNat < s.cap ∧ Memory.read s.buf a.toNat = some b ∧ byteOperand s a = .ok b) := by
  unfold byteOperand addrOperand
  by_cases h : s.cap ≤ a.toNat
  · exact .inl ⟨h, by simp [h]⟩
  · cases h' : Memory.read s.buf a.toNat with
    | none => exact .inr (.inl ⟨by omega, rfl, by simp [h, h']⟩)
    | some b => exact .inr (.inr ⟨b, by omega, rfl, by simp [h, h']⟩)

/-- The three answers of a length operand with its bytes. -/
theorem bytesOperand_cases (s : State) (n : Half) :
    (s.cap < n.toNat ∧ bytesOperand s n = .error .addrRange) ∨
    (n.toNat ≤ s.cap ∧ Memory.readFirst s.buf n.toNat = none ∧ bytesOperand s n = .error .uninitRead) ∨
    (∃ bs, n.toNat ≤ s.cap ∧ Memory.readFirst s.buf n.toNat = some bs ∧ bytesOperand s n = .ok bs) := by
  unfold bytesOperand lenOperand
  by_cases h : s.cap < n.toNat
  · exact .inl ⟨h, by simp [h]⟩
  · cases h' : Memory.readFirst s.buf n.toNat with
    | none => exact .inr (.inl ⟨by omega, rfl, by simp [h, h']⟩)
    | some bs => exact .inr (.inr ⟨bs, by omega, rfl, by simp [h, h']⟩)

/-- The two answers of an address operand. -/
theorem addrOperand_cases (s : State) (a : Half) :
    (s.cap ≤ a.toNat ∧ addrOperand s a = .error .addrRange) ∨ (a.toNat < s.cap ∧ addrOperand s a = .ok a.toNat) := by
  unfold addrOperand
  by_cases h : s.cap ≤ a.toNat
  · exact .inl ⟨h, by simp [h]⟩
  · exact .inr ⟨by omega, by simp [h]⟩

/-- The cursor below the capacity counts up without wrapping. -/
theorem cursor_succ_toNat {s : State} (h : s.cursor.toNat < s.cap) : (s.cursor + 1).toNat = s.cursor.toNat + 1 := by
  have : s.cap < 65536 := s.params.capacity.isLt
  rw [BitVec.toNat_add]
  simp only [BitVec.ofNat_eq_ofNat, BitVec.toNat_ofNat]
  omega

/-- Accepting a delimiter: stored, echoed, and the line handed over. -/
theorem accept_delim {s : State} {b : Byte} (h : isDelim s.params b = true) :
    s.accept b = { s with
      buf := Memory.write s.buf s.cursor.toNat b
      trace := s.trace ++ echoes s.params [b] ++ [.line (s.cursor.toNat + 1)]
      lineLen := s.cursor + 1
      phase := .linePending } := by
  cases h' : s.params.echo <;>
    simp [State.accept, h, State.handOver, State.echoByte, State.emit, State.storeByte, echoes, h']

/-- Accepting any other byte: stored, echoed, and the cursor moved on. -/
theorem accept_other {s : State} {b : Byte} (h : isDelim s.params b = false) :
    s.accept b = { s with
      buf := Memory.write s.buf s.cursor.toNat b
      trace := s.trace ++ echoes s.params [b]
      cursor := s.cursor + 1 } := by
  cases h' : s.params.echo <;>
    simp [State.accept, h, State.advance, State.echoByte, State.emit, State.storeByte, echoes, h']

/-- The two ways a byte is accepted, at a cursor that does not wrap. -/
theorem accept_cases (s : State) (b : Byte) (h : s.cursor.toNat < s.cap ∨ s.cursor = 0) :
    (s.cursor + 1).toNat = s.cursor.toNat + 1 ∧
    ((isDelim s.params b = true ∧
      s.accept b = { s with
        buf := Memory.write s.buf s.cursor.toNat b
        trace := s.trace ++ echoes s.params [b] ++ [.line (s.cursor.toNat + 1)]
        lineLen := s.cursor + 1
        phase := .linePending }) ∨
     (isDelim s.params b = false ∧
      s.accept b = { s with
        buf := Memory.write s.buf s.cursor.toNat b
        trace := s.trace ++ echoes s.params [b]
        cursor := s.cursor + 1 })) := by
  refine ⟨?_, ?_⟩
  · rcases h with h | h
    · exact cursor_succ_toNat h
    · rw [h]; rfl
  · cases hd : isDelim s.params b
    · exact .inr ⟨rfl, accept_other hd⟩
    · exact .inl ⟨rfl, accept_delim hd⟩

theorem receive_full {s : State} (b : Byte) (h : s.cap ≤ s.cursor.toNat) : s.receive b = s.overflow b := by
  simp [State.receive, h]

theorem receive_room {s : State} (b : Byte) (h : s.cursor.toNat < s.cap) : s.receive b = s.accept b := by
  simp [State.receive, Nat.not_le.2 h]

theorem rxReady_iff (s : State) : s.rxReady = true ↔ s.phase = .run ∧ s.fault = none := by
  simp [State.rxReady]

/-- CURSOR weighs 2^8, DMODE 8, ECHO 4 and PHASE 1, and the reserved bits are 0 (R33). -/
theorem statusWord_toNat (s : State) :
    (statusWord s).toNat =
      s.cursor.toNat * 2 ^ 8 + (dmodeBit s.params.delimMode).toNat * 8 + (echoBit s.params.echo).toNat * 4 +
        (phaseCode s.phase).toNat := by
  rw [statusWord, toNat_bitAppend, toNat_bitAppend, toNat_bitAppend, toNat_bitAppend, toNat_bitAppend]
  simp only [BitVec.toNat_ofNat]
  omega

end Sys2Proof.Machine
end

