-- ==== Sys2Proof/Laws/Exec.lean ====
section
/-! SUPPORT. What each operation can do when it answers a next state: one inversion lemma per operation, which a proof
over all operations cites in place of unfolding `exec`. -/

namespace Sys2Proof.Machine

theorem exec_nop_next {s t : State} (h : exec .nop s = .next t) : s.fault = none ∧ t = s := by
  obtain ⟨hf, h⟩ := whenLive_next h
  cases h
  exact ⟨hf, rfl⟩

theorem exec_crcInit_next {s t : State} (h : exec .crcInit s = .next t) :
    s.fault = none ∧ t = s.setCrc crcInitial := by
  obtain ⟨hf, h⟩ := whenLive_next h
  cases h
  exact ⟨hf, rfl⟩

theorem exec_crcFeed_next {s t : State} {d : Byte} (h : exec (.crcFeed d) s = .next t) :
    s.fault = none ∧ t = s.setCrc (crcStep s.crc d) := by
  obtain ⟨hf, h⟩ := whenLive_next h
  cases h
  exact ⟨hf, rfl⟩

theorem exec_crcBuf_next {s t : State} {n : Half} (h : exec (.crcBuf n) s = .next t) :
    s.fault = none ∧
      ((s.cap < n.toNat ∧ t = s.raise .addrRange (opWordOf (.crcBuf n))) ∨
       (n.toNat ≤ s.cap ∧ Memory.readFirst s.buf n.toNat = none ∧ t = s.raise .uninitRead (opWordOf (.crcBuf n))) ∨
       (∃ bs, n.toNat ≤ s.cap ∧ Memory.readFirst s.buf n.toNat = some bs ∧ t = s.setCrc (crc16 bs))) := by
  obtain ⟨hf, h⟩ := whenLive_next h
  refine ⟨hf, ?_⟩
  obtain ⟨h1, h2⟩ | ⟨h1, h2, h3⟩ | ⟨bs, h1, h2, h3⟩ := bytesOperand_cases s n
  · rw [h2] at h
    cases h
    exact .inl ⟨h1, rfl⟩
  · rw [h3] at h
    cases h
    exact .inr (.inl ⟨h1, h2, rfl⟩)
  · rw [h3] at h
    cases h
    exact .inr (.inr ⟨bs, h1, h2, rfl⟩)

theorem exec_crcRd_next {s t : State} (h : exec .crcRd s = .next t) :
    s.fault = none ∧ t = s.giveResult (s.crc.zeroExtend 32) := by
  obtain ⟨hf, h⟩ := whenLive_next h
  cases h
  exact ⟨hf, rfl⟩

theorem exec_lfsRelease_next {s t : State} (h : exec .lfsRelease s = .next t) :
    s.fault = none ∧
      ((s.phase = .run ∧ t = s.raise .protocolViolation (opWordOf .lfsRelease)) ∨
       (s.phase = .linePending ∧ t = { s with cursor := 0, phase := .run }) ∨
       (∃ b, s.phase = .ovfPending ∧ s.held = some b ∧ t = s.resume.accept b)) := by
  obtain ⟨hf, h⟩ := whenLive_next h
  refine ⟨hf, ?_⟩
  split at h
  · cases h
    exact .inl ⟨‹_›, rfl⟩
  · cases h
    exact .inr (.inl ⟨‹_›, rfl⟩)
  · split at h
    · cases h
      exact .inr (.inr ⟨_, ‹_›, ‹_›, rfl⟩)
    · cases h

theorem exec_lfsClear_next {s t : State} (h : exec .lfsClear s = .next t) :
    s.fault = none ∧ t = { s with cursor := 0 } := by
  obtain ⟨hf, h⟩ := whenLive_next h
  cases h
  exact ⟨hf, rfl⟩

theorem exec_bufRd_next {s t : State} {a : Half} (h : exec (.bufRd a) s = .next t) :
    s.fault = none ∧
      ((s.cap ≤ a.toNat ∧ t = s.raise .addrRange (opWordOf (.bufRd a))) ∨
       (a.toNat < s.cap ∧ Memory.read s.buf a.toNat = none ∧ t = s.raise .uninitRead (opWordOf (.bufRd a))) ∨
       (∃ b, a.toNat < s.cap ∧ Memory.read s.buf a.toNat = some b ∧ t = s.giveResult (b.zeroExtend 32))) := by
  obtain ⟨hf, h⟩ := whenLive_next h
  refine ⟨hf, ?_⟩
  obtain ⟨h1, h2⟩ | ⟨h1, h2, h3⟩ | ⟨b, h1, h2, h3⟩ := byteOperand_cases s a
  · rw [h2] at h
    cases h
    exact .inl ⟨h1, rfl⟩
  · rw [h3] at h
    cases h
    exact .inr (.inl ⟨h1, h2, rfl⟩)
  · rw [h3] at h
    cases h
    exact .inr (.inr ⟨b, h1, h2, rfl⟩)

theorem exec_bufWr_next {s t : State} {a : Half} {d : Byte} (h : exec (.bufWr a d) s = .next t) :
    s.fault = none ∧
      ((s.cap ≤ a.toNat ∧ t = s.raise .addrRange (opWordOf (.bufWr a d))) ∨
       (a.toNat < s.cap ∧ t = s.storeByte a.toNat d)) := by
  obtain ⟨hf, h⟩ := whenLive_next h
  refine ⟨hf, ?_⟩
  obtain ⟨h1, h2⟩ | ⟨h1, h2⟩ := addrOperand_cases s a
  · rw [h2] at h
    cases h
    exact .inl ⟨h1, rfl⟩
  · rw [h2] at h
    cases h
    exact .inr ⟨h1, rfl⟩

theorem exec_statusRd_next {s t : State} (h : exec .statusRd s = .next t) :
    s.fault = none ∧ t = s.giveResult (statusWord s) := by
  obtain ⟨hf, h⟩ := whenLive_next h
  cases h
  exact ⟨hf, rfl⟩

theorem exec_lenRd_next {s t : State} (h : exec .lenRd s = .next t) :
    s.fault = none ∧ t = s.giveResult (s.lineLen.zeroExtend 32) := by
  obtain ⟨hf, h⟩ := whenLive_next h
  cases h
  exact ⟨hf, rfl⟩

theorem exec_rxByte_next {s t : State} {b : Byte} (h : exec (.rxByte b) s = .next t) :
    s.fault = none ∧ s.phase = .run ∧
      ((s.cap ≤ s.cursor.toNat ∧ t = s.overflow b) ∨ (s.cursor.toNat < s.cap ∧ t = s.accept b)) := by
  obtain ⟨hf, h⟩ := whenLive_next h
  split at h
  · cases h
    refine ⟨hf, ‹_›, ?_⟩
    rcases Nat.lt_or_ge s.cursor.toNat s.cap with h1 | h1
    · exact .inr ⟨h1, receive_room b h1⟩
    · exact .inl ⟨h1, receive_full b h1⟩
  · cases h
  · cases h

/-- Everything an operation can do when it answers a next state, operation by operation: nothing, the CRC register, a
result, a fault record, the end of a pending phase, the cursor, one cell, or a received byte. -/
theorem exec_cases {i : Instr} {s t : State} (h : exec i s = .next t) :
    s.fault = none ∧
    ((i = .nop ∧ t = s) ∨
     (∃ c, (i = .crcInit ∨ (∃ d, i = .crcFeed d) ∨ ∃ n, i = .crcBuf n) ∧ t = s.setCrc c) ∨
     (∃ v, (i = .crcRd ∨ (∃ a, i = .bufRd a) ∨ i = .statusRd ∨ i = .lenRd) ∧ t = s.giveResult v) ∨
     (∃ r, ((∃ n, i = .crcBuf n) ∨ i = .lfsRelease ∨ (∃ a, i = .bufRd a) ∨ ∃ a d, i = .bufWr a d) ∧
       t = s.raise r (opWordOf i)) ∨
     (i = .lfsRelease ∧ s.phase = .linePending ∧ t = { s with cursor := 0, phase := .run }) ∨
     (∃ b, i = .lfsRelease ∧ s.phase = .ovfPending ∧ s.held = some b ∧ t = s.resume.accept b) ∨
     (i = .lfsClear ∧ t = { s with cursor := 0 }) ∨
     (∃ a d, i = .bufWr a d ∧ a.toNat < s.cap ∧ t = s.storeByte a.toNat d) ∨
     (∃ b, i = .rxByte b ∧ s.phase = .run ∧ s.cap ≤ s.cursor.toNat ∧ t = s.overflow b) ∨
     (∃ b, i = .rxByte b ∧ s.phase = .run ∧ s.cursor.toNat < s.cap ∧ t = s.accept b)) := by
  cases i with
  | nop =>
    obtain ⟨hf, rfl⟩ := exec_nop_next h
    exact ⟨hf, .inl ⟨rfl, rfl⟩⟩
  | crcInit =>
    obtain ⟨hf, rfl⟩ := exec_crcInit_next h
    exact ⟨hf, .inr (.inl ⟨_, by simp, rfl⟩)⟩
  | crcFeed d =>
    obtain ⟨hf, rfl⟩ := exec_crcFeed_next h
    exact ⟨hf, .inr (.inl ⟨_, by simp, rfl⟩)⟩
  | crcBuf n =>
    obtain ⟨hf, ⟨_, rfl⟩ | ⟨_, _, rfl⟩ | ⟨_, _, _, rfl⟩⟩ := exec_crcBuf_next h
    · exact ⟨hf, .inr (.inr (.inr (.inl ⟨_, by simp, rfl⟩)))⟩
    · exact ⟨hf, .inr (.inr (.inr (.inl ⟨_, by simp, rfl⟩)))⟩
    · exact ⟨hf, .inr (.inl ⟨_, by simp, rfl⟩)⟩
  | crcRd =>
    obtain ⟨hf, rfl⟩ := exec_crcRd_next h
    exact ⟨hf, .inr (.inr (.inl ⟨_, by simp, rfl⟩))⟩
  | lfsRelease =>
    obtain ⟨hf, ⟨_, rfl⟩ | ⟨h1, rfl⟩ | ⟨b, h1, h2, rfl⟩⟩ := exec_lfsRelease_next h
    · exact ⟨hf, .inr (.inr (.inr (.inl ⟨_, by simp, rfl⟩)))⟩
    · exact ⟨hf, by simp [h1]⟩
    · exact ⟨hf, by simp [h1, h2]⟩
  | lfsClear =>
    obtain ⟨hf, rfl⟩ := exec_lfsClear_next h
    exact ⟨hf, by simp⟩
  | bufRd a =>
    obtain ⟨hf, ⟨_, rfl⟩ | ⟨_, _, rfl⟩ | ⟨_, _, _, rfl⟩⟩ := exec_bufRd_next h
    · exact ⟨hf, .inr (.inr (.inr (.inl ⟨_, by simp, rfl⟩)))⟩
    · exact ⟨hf, .inr (.inr (.inr (.inl ⟨_, by simp, rfl⟩)))⟩
    · exact ⟨hf, .inr (.inr (.inl ⟨_, by simp, rfl⟩))⟩
  | bufWr a d =>
    obtain ⟨hf, ⟨_, rfl⟩ | ⟨hc, rfl⟩⟩ := exec_bufWr_next h
    · exact ⟨hf, .inr (.inr (.inr (.inl ⟨_, by simp, rfl⟩)))⟩
    · exact ⟨hf, by simp [hc]⟩
  | statusRd =>
    obtain ⟨hf, rfl⟩ := exec_statusRd_next h
    exact ⟨hf, .inr (.inr (.inl ⟨_, by simp, rfl⟩))⟩
  | lenRd =>
    obtain ⟨hf, rfl⟩ := exec_lenRd_next h
    exact ⟨hf, .inr (.inr (.inl ⟨_, by simp, rfl⟩))⟩
  | rxByte b =>
    obtain ⟨hf, hp, ⟨h1, rfl⟩ | ⟨h1, rfl⟩⟩ := exec_rxByte_next h
    · exact ⟨hf, by simp [hp, h1]⟩
    · exact ⟨hf, by simp [hp, h1]⟩

/-- The op word of a control operation is its encoding. -/
theorem encode_opWordOf {i : Instr} (h : i.port = .control) : encode i = .op (opWordOf i) := by
  cases i <;> first | rfl | cases h

/-- Everything a step can do: no change but the turn, RESET, a fault of an illegal word, or one operation on the state
without the turn and the word it came from. -/
theorem step_cases {s t : State} (h : step s = .next t) :
    (s.turns = [] ∧ t = s) ∨
    (∃ u ts, s.turns = u :: ts ∧ u ≠ .reset ∧ t = { s with turns := ts }) ∨
    (∃ ts, s.turns = .reset :: ts ∧ t = State.applyReset { s with turns := ts }) ∨
    (∃ ts w ws e, s.turns = .controller :: ts ∧ s.controller = w :: ws ∧ s.fault = none ∧ decodeOp w = .error e ∧
      t = State.raise { s with turns := ts, controller := ws } .illegalOp w) ∨
    (∃ ts w ws i, s.turns = .controller :: ts ∧ s.controller = w :: ws ∧ decodeOp w = .ok i ∧
      exec i { s with turns := ts, controller := ws } = .next t) ∨
    (∃ ts b bs, s.turns = .channel :: ts ∧ s.channel = b :: bs ∧ s.rxReady = true ∧
      exec (.rxByte b) { s with turns := ts, channel := bs } = .next t) := by
  unfold step takeTurn at h
  split at h
  · cases h
    exact .inl ⟨‹_›, rfl⟩
  · rename_i ts ht
    unfold channelTurn at h
    split at h
    · split at h
      · cases h
        exact .inr (.inl ⟨_, ts, ht, by simp, rfl⟩)
      · exact .inr (.inr (.inr (.inr (.inr ⟨ts, _, _, ht, ‹_›, ‹_›, h⟩))))
    · cases h
      exact .inr (.inl ⟨_, ts, ht, by simp, rfl⟩)
  · rename_i ts ht
    unfold controllerTurn at h
    split at h
    · cases h
      exact .inr (.inl ⟨_, ts, ht, by simp, rfl⟩)
    · split at h
      · cases h
        exact .inr (.inl ⟨_, ts, ht, by simp, rfl⟩)
      · unfold runWord at h
        split at h
        · exact .inr (.inr (.inr (.inr (.inl ⟨ts, _, _, _, ht, ‹_›, ‹_›, h⟩))))
        · obtain ⟨hf, h⟩ := whenLive_next h
          cases h
          exact .inr (.inr (.inr (.inl ⟨ts, _, _, _, ht, ‹_›, hf, ‹_›, rfl⟩)))
  · rename_i ts ht
    cases h
    exact .inr (.inr (.inl ⟨ts, ht, rfl⟩))

/-- A run of operations, cut in two. -/
theorem runInstrs_append (xs ys : List Instr) {s t : State} (h : runInstrs xs s = .next t) :
    runInstrs (xs ++ ys) s = runInstrs ys t := by
  induction xs generalizing s with
  | nil => cases h; rfl
  | cons i is ih =>
    unfold runInstrs at h
    simp only [List.cons_append, runInstrs]
    split at h
    · exact ih h
    · cases h
    · cases h

end Sys2Proof.Machine
end

