-- ==== Sys2Proof/Laws/PerInstr.lean ====
section
/-! SUPPORT. Statements made per instruction, one lemma per constructor: the word an operation encodes to is on the port
the table gives it and selects its own row of the opcode map (30_encoding.md R74, R75). -/

namespace Sys2Proof.Laws.RowSelected

/-- The row of the opcode map at `k` is the operation's, and its word selects it. -/
def AtRow (i : Instr) (k : Nat) (w : Word) : Prop :=
  i.port = .control ∧ (opTable[k]?).map OpRow.mnemonic = some i.mnemonic ∧ (opTable[k]?).map (·.selects w) = some true

/-- The operation's word is on its port, and an op word selects the row of the operation's mnemonic. -/
def Statement (i : Instr) : Prop :=
  match encode i with
  | .rx _ => i.port = .rx
  | .op w => ∃ k, AtRow i k w

theorem nop : Statement .nop := ⟨0, by unfold AtRow; decide⟩

theorem crcInit : Statement .crcInit := ⟨1, by unfold AtRow; decide⟩

theorem crcFeed (d : Byte) : Statement (.crcFeed d) := by
  refine ⟨2, rfl, rfl, congrArg some (beq_iff_eq.2 (BitVec.eq_of_getLsbD_eq fun i hi => ?_))⟩
  rw [BitVec.getLsbD_and, opWord_getLsbD]
  interval_cases i <;> simp

theorem crcBuf (n : Half) : Statement (.crcBuf n) := by
  refine ⟨3, rfl, rfl, congrArg some (beq_iff_eq.2 (BitVec.eq_of_getLsbD_eq fun i hi => ?_))⟩
  rw [BitVec.getLsbD_and, opWord_getLsbD]
  interval_cases i <;> simp

theorem crcRd : Statement .crcRd := ⟨4, by unfold AtRow; decide⟩

theorem lfsRelease : Statement .lfsRelease := ⟨5, by unfold AtRow; decide⟩

theorem lfsClear : Statement .lfsClear := ⟨6, by unfold AtRow; decide⟩

theorem bufRd (a : Half) : Statement (.bufRd a) := by
  refine ⟨7, rfl, rfl, congrArg some (beq_iff_eq.2 (BitVec.eq_of_getLsbD_eq fun i hi => ?_))⟩
  rw [BitVec.getLsbD_and, opWord_getLsbD]
  interval_cases i <;> simp

theorem bufWr (a : Half) (d : Byte) : Statement (.bufWr a d) := by
  refine ⟨8, rfl, rfl, congrArg some (beq_iff_eq.2 (BitVec.eq_of_getLsbD_eq fun i hi => ?_))⟩
  rw [BitVec.getLsbD_and, opWord_getLsbD]
  interval_cases i <;> simp

theorem statusRd : Statement .statusRd := ⟨9, by unfold AtRow; decide⟩

theorem lenRd : Statement .lenRd := ⟨10, by unfold AtRow; decide⟩

theorem rxByte (b : Byte) : Statement (.rxByte b) := rfl

end Sys2Proof.Laws.RowSelected
end

