-- ==== Sys2Proof/Machine/Assembly.lean ====
section
/-! DEFINITION. The assembler's line syntax (30_encoding.md R78): `<agent>: <mnemonic> <operands>`, the agent prefix
optional, numbers decimal unless prefixed 0x, a byte also as a character in single quotes; and the pseudo-operations of
R79. A line is a list of characters; a line that is not of this syntax assembles to none, and what the model settles
where the syntax is silent is log 12. -/

namespace Sys2Proof.Assembly

/-- The character `'`, written by its code. -/
def quote : Char := Char.ofNat 39

/-- The character `"`, written by its code. -/
def dquote : Char := Char.ofNat 34

/-- The character `\`, written by its code. -/
def backslash : Char := Char.ofNat 92

/-- Drop the spaces before. -/
def trimLeft (cs : List Char) : List Char := cs.dropWhile (· == ' ')

/-- Drop the spaces before and after. -/
def trim (cs : List Char) : List Char := (trimLeft (trimLeft cs).reverse).reverse

/-- The value of a digit character in a base of at most 16. -/
def digit (base : Nat) (c : Char) : Option Nat :=
  let n := c.toNat
  let v :=
    if 48 ≤ n ∧ n ≤ 57 then n - 48
    else if 65 ≤ n ∧ n ≤ 70 then n - 55
    else if 97 ≤ n ∧ n ≤ 102 then n - 87
    else base
  if v < base then some v else none

/-- Digits to a value, most significant first. -/
def digitsFrom (base acc : Nat) : List Char → Option Nat
  | [] => some acc
  | c :: cs =>
    match digit base c with
    | some v => digitsFrom base (base * acc + v) cs
    | none => none

/-- A number: decimal, or hexadecimal after 0x (R78). -/
def number (cs : List Char) : Option Nat :=
  match cs with
  | [] => none
  | ['0', 'x'] => none
  | '0' :: 'x' :: ds => digitsFrom 16 0 ds
  | ds => digitsFrom 10 0 ds

/-- A number that fits in 16 bits, as an address or a length. -/
def halfOperand (cs : List Char) : Option Half :=
  match number (trim cs) with
  | some n => if n < 65536 then some (BitVec.ofNat 16 n) else none
  | none => none

/-- A character as the byte of its code. -/
def charByte (c : Char) : Option Byte := if c.toNat < 256 then some (BitVec.ofNat 8 c.toNat) else none

/-- The byte of an escape: `\n` is LF, `\r` CR, `\0` NUL (R78). -/
def escapeByte (c : Char) : Option Byte :=
  if c = 'n' then some 0x0A else if c = 'r' then some 0x0D else if c = '0' then some 0x00 else none

/-- A byte: a number, or a character in single quotes (R78). DESIGN CHOICE (log 12): the one character between the
single quotes may be any, a single quote or a backslash among them. -/
def byteOperand (cs : List Char) : Option Byte :=
  match trim cs with
  | [q, c, r] =>
    if q = quote ∧ r = quote then charByte c
    else
      match number [q, c, r] with
      | some n => if n < 256 then some (BitVec.ofNat 8 n) else none
      | none => none
  | [q, b, c, r] =>
    if q = quote ∧ b = backslash ∧ r = quote then escapeByte c
    else
      match number [q, b, c, r] with
      | some n => if n < 256 then some (BitVec.ofNat 8 n) else none
      | none => none
  | ds =>
    match number ds with
    | some n => if n < 256 then some (BitVec.ofNat 8 n) else none
    | none => none

/-- The bytes of a string's inside, with its escapes (R79). DESIGN CHOICE (log 12): a double quote inside is the byte
0x22, and a backslash before any character but `n`, `r` and `0` is refused. -/
def stringBytes : List Char → Option (List Byte)
  | [] => some []
  | c :: cs =>
    if c = backslash then
      match cs with
      | [] => none
      | e :: es =>
        match escapeByte e, stringBytes es with
        | some b, some bs => some (b :: bs)
        | _, _ => none
    else
      match charByte c, stringBytes cs with
      | some b, some bs => some (b :: bs)
      | _, _ => none

/-- A string in double quotes (R79). DESIGN CHOICE (log 12): the last double quote of the line closes it, so one before
that stands for itself. -/
def stringOperand (cs : List Char) : Option (List Byte) :=
  match trim cs with
  | [] => none
  | q :: rest =>
    match rest.reverse with
    | [] => none
    | r :: inside => if q = dquote ∧ r = dquote then stringBytes inside.reverse else none

/-- What stands before and after the first comma. -/
def splitComma : List Char → Option (List Char × List Char)
  | [] => none
  | c :: cs =>
    if c = ',' then some ([], cs)
    else
      match splitComma cs with
      | some (l, r) => some (c :: l, r)
      | none => none

/-- A mnemonic without operands. -/
def plain (i : Instr) (rest : List Char) : Option (List Instr) :=
  match trim rest with
  | [] => some [i]
  | _ :: _ => none

/-- A mnemonic with one byte. -/
def withByte (i : Byte → Instr) (rest : List Char) : Option (List Instr) := (byteOperand rest).map fun b => [i b]

/-- A mnemonic with one address or length. -/
def withHalf (i : Half → Instr) (rest : List Char) : Option (List Instr) := (halfOperand rest).map fun a => [i a]

/-- A pseudo-operation with a string. DESIGN CHOICE (log 12): the escapes, which R79 names in the row of RX_STR alone,
hold in the strings of CRC_STR and CRC16 as well. -/
def withString (p : List Byte → Pseudo) (rest : List Char) : Option (List Instr) :=
  match stringOperand rest with
  | some bs => expand (p bs)
  | none => none

/-- BUF_WR's operands: `<a>, <byte>` (R78). -/
def writeOperands (rest : List Char) : Option (List Instr) :=
  match splitComma rest with
  | none => none
  | some (l, r) =>
    match halfOperand l, byteOperand r with
    | some a, some d => some [.bufWr a d]
    | _, _ => none

/-- The mnemonics and the pseudo-operations, each with what reads its operands (R78, R79). -/
def mnemonics : List (List Char × (List Char → Option (List Instr))) := [
  (['N', 'O', 'P'], plain .nop),
  (['C', 'R', 'C', '_', 'I', 'N', 'I', 'T'], plain .crcInit),
  (['C', 'R', 'C', '_', 'F', 'E', 'E', 'D'], withByte .crcFeed),
  (['C', 'R', 'C', '_', 'B', 'U', 'F'], withHalf .crcBuf),
  (['C', 'R', 'C', '_', 'R', 'D'], plain .crcRd),
  (['L', 'F', 'S', '_', 'R', 'E', 'L', 'E', 'A', 'S', 'E'], plain .lfsRelease),
  (['L', 'F', 'S', '_', 'C', 'L', 'E', 'A', 'R'], plain .lfsClear),
  (['B', 'U', 'F', '_', 'R', 'D'], withHalf .bufRd),
  (['B', 'U', 'F', '_', 'W', 'R'], writeOperands),
  (['S', 'T', 'A', 'T', 'U', 'S', '_', 'R', 'D'], plain .statusRd),
  (['L', 'E', 'N', '_', 'R', 'D'], plain .lenRd),
  (['R', 'X', '_', 'B', 'Y', 'T', 'E'], withByte .rxByte),
  (['R', 'X', '_', 'S', 'T', 'R'], withString .rxStr),
  (['C', 'R', 'C', '_', 'S', 'T', 'R'], withString .crcStr),
  (['C', 'R', 'C', '1', '6'], withString .crc16),
  (['N', 'U', 'L', '_', 'T', 'E', 'R', 'M'],
    fun rest => match halfOperand rest with
      | some n => expand (.nulTerm n)
      | none => none)]

/-- A line without its agent prefix: the mnemonic up to the first space, then the operands. -/
def body (cs : List Char) : Option (List Instr) :=
  let m := cs.takeWhile (· != ' ')
  match mnemonics.find? (fun row => row.1 == m) with
  | some row => row.2 (cs.drop m.length)
  | none => none

/-- The operations all belong to the agent named by a prefix: `ch` the channel, `ct` the controller (R78). -/
def ofAgent (p : Port) (is : List Instr) : Option (List Instr) := if is.all (fun i => i.port == p) then some is else none

/-- One line of a listing to the operations it stands for, in order (R78, R79). -/
def assembleLine (cs : List Char) : Option (List Instr) :=
  match trimLeft cs with
  | 'c' :: 'h' :: ':' :: rest => (body (trimLeft rest)).bind (ofAgent .rx)
  | 'c' :: 't' :: ':' :: rest => (body (trimLeft rest)).bind (ofAgent .control)
  | rest => body rest

end Sys2Proof.Assembly
end

