-- ==== Sys2Proof/Tests/Slice0.lean ====
section
/-! SUPPORT. Small tests of the model against values the spec gives (95_test_vectors.md, named in each test), the smoke
test of WellFormed, and for each statement that has hypotheses a concrete state and operands that meet them. -/

namespace Sys2Proof.Tests

open Sys2Proof.Machine

/-! ### Helpers -/

/-- An instance of capacity `c`, CR_OR_LF, ECHO off. -/
def inst (c : Fin 65536) : Params := ⟨c, .crOrLf, false⟩

/-- Reset of an instance of capacity 4. -/
def r4 : State := State.resetWith (inst 4)

/-- Reset of an instance of capacity 8. -/
def r8 : State := State.resetWith (inst 8)

/-- Reset of an instance of capacity 4 with ECHO on. -/
def e4 : State := State.resetWith ⟨4, .crOrLf, true⟩

/-- "hi" received, capacity 8: RUN, cursor 2. -/
def hi8 : State := { r8 with buf := [(0, 0x68), (1, 0x69)], cursor := 2 }

/-- V-LFS-01: "hi" and LF received, capacity 8. -/
def line8 : State :=
  { r8 with buf := [(0, 0x68), (1, 0x69), (2, 0x0A)], cursor := 2, phase := .linePending, lineLen := 3, trace := [.line 3] }

/-- V-LFS-05: "abcd" received, capacity 4: the buffer is full. -/
def full4 : State := { r4 with buf := [(0, 0x61), (1, 0x62), (2, 0x63), (3, 0x64)], cursor := 4 }

/-- V-LFS-06: "abcde" received, capacity 4: an overflow is pending. -/
def ovf4 : State := { full4 with cursor := 0, phase := .ovfPending, held := some 0x65, trace := [.overflow] }

/-- The same with a delimiter held. -/
def ovfLf4 : State := { ovf4 with held := some 0x0A }

/-- A block that has faulted. -/
def faulted4 : State := { r4 with fault := some ⟨.addrRange, 0x70000400⟩ }

/-- A field of the next state, where there is one. -/
def got {α : Type} (o : Host.Outcome State Machine.Fault Refusal) (f : State → α) : Option α :=
  match o with
  | .next t => some (f t)
  | .fault _ => none
  | .refused _ => none

/-- The outcome is this next state. -/
def isNext (o : Host.Outcome State Machine.Fault Refusal) (t : State) : Bool :=
  match o with
  | .next u => decide (u = t)
  | .fault _ => false
  | .refused _ => false

theorem eq_next_of_isNext {o : Host.Outcome State Machine.Fault Refusal} {t : State} (h : isNext o t = true) :
    o = .next t := by
  unfold isNext at h
  split at h
  · rw [of_decide_eq_true h]
  · cases h
  · cases h

/-- The outcome is a next state. -/
def hasNext (o : Host.Outcome State Machine.Fault Refusal) : Bool :=
  match o with
  | .next _ => true
  | .fault _ => false
  | .refused _ => false

theorem exists_next_of_hasNext {o : Host.Outcome State Machine.Fault Refusal} (h : hasNext o = true) :
    ∃ t, o = .next t := by
  unfold hasNext at h
  split at h
  · exact ⟨_, rfl⟩
  · cases h
  · cases h

/-! ### WellFormed: an ill-formed term for each check -/

theorem test_wf_params : Params.wf (inst 0) = false ∧ Params.wf (inst 1) = true := by decide

theorem test_wf_opAssigned : OpFields.opAssigned ⟨0xB, 0, 0, 0⟩ = false ∧ OpFields.wf ⟨0xB, 0, 0, 0⟩ = false := by decide

theorem test_wf_rsvZero : OpFields.rsvZero ⟨0x1, 1, 0, 0⟩ = false ∧ OpFields.wf ⟨0x1, 1, 0, 0⟩ = false := by decide

theorem test_wf_aZeroIfUnused :
    OpFields.aZeroIfUnused ⟨0x2, 0, 1, 0x41⟩ = false ∧ OpFields.wf ⟨0x2, 0, 1, 0x41⟩ = false := by decide

theorem test_wf_dZeroIfUnused :
    OpFields.dZeroIfUnused ⟨0x7, 0, 2, 1⟩ = false ∧ OpFields.wf ⟨0x7, 0, 2, 1⟩ = false := by decide

theorem test_wf_good_word : OpFields.wf (opFields 0x801234AB) = true := by decide

theorem test_wf_inRange :
    Instr.inRange (inst 4) (.bufRd 4) = false ∧ Instr.inRange (inst 4) (.bufWr 4 0) = false ∧
    Instr.inRange (inst 4) (.crcBuf 5) = false ∧ Instr.inRange (inst 4) (.crcBuf 4) = true := by decide

theorem test_wf_pseudo : Pseudo.wf (.nulTerm 0) = false ∧ expand (.nulTerm 0) = none := by decide

theorem test_wf_memory :
    Memory.wf [(1, 0x41), (0, 0x42)] = false ∧ Memory.wf [(1, 0x41), (1, 0x42)] = false ∧
    Memory.below [(4, 0x41)] 4 = false := by decide

/-! ### Decoding: each word written out from the fields of R71 and the map of R74 -/

theorem test_decode_nop : decodeOp 0b0000_0000_0000000000000000_00000000 = .ok .nop := rfl

theorem test_decode_crcInit : decodeOp 0b0001_0000_0000000000000000_00000000 = .ok .crcInit := rfl

theorem test_decode_crcFeed : decodeOp 0b0010_0000_0000000000000000_01000001 = .ok (.crcFeed 0x41) := rfl

theorem test_decode_crcBuf : decodeOp 0b0011_0000_0000000000001001_00000000 = .ok (.crcBuf 9) := rfl

theorem test_decode_crcRd : decodeOp 0b0100_0000_0000000000000000_00000000 = .ok .crcRd := rfl

theorem test_decode_lfsRelease : decodeOp 0b0101_0000_0000000000000000_00000000 = .ok .lfsRelease := rfl

theorem test_decode_lfsClear : decodeOp 0b0110_0000_0000000000000000_00000000 = .ok .lfsClear := rfl

theorem test_decode_bufRd : decodeOp 0b0111_0000_0000000000000010_00000000 = .ok (.bufRd 2) := rfl

theorem test_decode_bufWr : decodeOp 0b1000_0000_0001001000110100_10101011 = .ok (.bufWr 0x1234 0xAB) := rfl

theorem test_decode_statusRd : decodeOp 0b1001_0000_0000000000000000_00000000 = .ok .statusRd := rfl

theorem test_decode_lenRd : decodeOp 0b1010_0000_0000000000000000_00000000 = .ok .lenRd := rfl

theorem test_decode_rxByte : decode (.rx 0b01101000) = .ok (.rxByte 0x68) := rfl

/-- V-DEC-02, 04, 06, 08, 10, 11. -/
theorem test_decode_illegal :
    decodeOp 0x00000001 = .error .dNonzero ∧ decodeOp 0x20010041 = .error .aNonzero ∧
    decodeOp 0x30000901 = .error .dNonzero ∧ decodeOp 0x81000000 = .error .rsvNonzero ∧
    decodeOp 0xB0000000 = .error .reservedOp ∧ decodeOp 0xF0000000 = .error .reservedOp ∧
    decodeOp 0xFFFFFFFF = .error .rsvNonzero := ⟨rfl, rfl, rfl, rfl, rfl, rfl, rfl⟩

/-- 30_encoding.md section 6, the other way. -/
theorem test_encode_words :
    encode (.crcFeed 0x41) = .op 0x20000041 ∧ encode (.crcBuf 9) = .op 0x30000900 ∧ encode .lfsRelease = .op 0x50000000 ∧
    encode (.bufRd 2) = .op 0x70000200 ∧ encode (.bufWr 0x1234 0xAB) = .op 0x801234AB ∧ encode .lenRd = .op 0xA0000000 := by
  decide

theorem test_decodeTableWord :
    decodeTableWord 32 0x70000000 = some (.bufRd 0) ∧ decodeTableWord 8 0x00 = some (.rxByte 0) ∧
    decodeTableWord 32 0xB0000000 = none := by decide

/-! ### The CRC generator -/

/-- V-CRC-34. -/
theorem test_crcInit : got (exec .crcInit { r8 with crc := 0x1234 }) State.crc = some 0xFFFF := by decide

/-- V-CRC-01. -/
theorem test_crcFeed_from_initial : got (exec (.crcFeed 0x41) r8) State.crc = some 0xB915 := by decide

/-- V-CRC-04c: a zero result from a register that is not zero. -/
theorem test_crcFeed_to_zero : got (exec (.crcFeed 0x80) { r8 with crc := 0x8000 }) State.crc = some 0x0000 := by decide

/-- V-CRC-35: the old value is ignored. -/
theorem test_crcBuf_hi : got (exec (.crcBuf 2) { hi8 with crc := 0x1234 }) State.crc = some 0x6203 := by decide

/-- V-CRC-31 and V-CRC-32. -/
theorem test_crcBuf_faults :
    got (exec (.crcBuf 5) r4) State.fault = some (some ⟨.addrRange, 0x30000500⟩) ∧
    got (exec (.crcBuf 1) r4) State.fault = some (some ⟨.uninitRead, 0x30000100⟩) := by decide

/-- V-CRC-36. -/
theorem test_crcRd : got (exec .crcRd { r8 with crc := 0x29B1 }) State.results = some [0x000029B1] := by decide

/-- V-CRC-05 and V-CRC-21. -/
theorem test_crc16 :
    crc16 [0x31, 0x32, 0x33, 0x34, 0x35, 0x36, 0x37, 0x38, 0x39] = 0x29B1 ∧ crc16 [0x0D] = 0x305D := by decide

/-! ### The synchronizer -/

/-- V-LFS-01, its last byte. -/
theorem test_rxByte_ends_a_line : isNext (exec (.rxByte 0x0A) hi8) line8 = true := by decide

/-- V-LFS-06, its last byte. -/
theorem test_rxByte_overflows : isNext (exec (.rxByte 0x65) full4) ovf4 = true := by decide

/-- V-LFS-07: the release stores the held byte. -/
theorem test_release_of_overflow :
    isNext (exec .lfsRelease ovf4)
      { ovf4 with phase := .run, cursor := 1, held := none
                  buf := [(0, 0x65), (1, 0x62), (2, 0x63), (3, 0x64)] } = true := by decide

/-- V-LFS-21. -/
theorem test_release_in_run :
    got (exec .lfsRelease r8) State.fault = some (some ⟨.protocolViolation, 0x50000000⟩) := by decide

/-- V-LFS-22. -/
theorem test_clear_keeps_the_phase :
    got (exec .lfsClear line8) State.cursor = some 0 ∧ got (exec .lfsClear line8) State.phase = some .linePending := by
  decide

/-- V-LFS-12, its first delimiter: Echo comes before Line. -/
theorem test_echo_before_line :
    got (exec (.rxByte 0x0D) { e4 with buf := [(0, 0x6F), (1, 0x6B)], cursor := 2 }) State.trace =
      some [.echo 0x0D, .line 3] := by decide

/-- V-LFS-13: CR is data in LF_ONLY. -/
theorem test_cr_is_data_in_lf_only :
    got (exec (.rxByte 0x0D) { hi8 with params := ⟨8, .lfOnly, false⟩ }) State.phase = some .run := by decide

/-! ### Buffer access and status -/

/-- V-NOP-01. -/
theorem test_nop : isNext (exec .nop line8) line8 = true := by decide

/-- 42_buffer_status.md R171, its example. -/
theorem test_bufRd : got (exec (.bufRd 2) line8) State.results = some [0x0000000A] := by decide

/-- V-BUF-02 (cell 2 not written) and V-BUF-03. -/
theorem test_bufRd_faults :
    got (exec (.bufRd 2) { r4 with buf := [(3, 0x41)] }) State.fault = some (some ⟨.uninitRead, 0x70000200⟩) ∧
    got (exec (.bufRd 4) r4) State.fault = some (some ⟨.addrRange, 0x70000400⟩) := by decide

/-- V-BUF-05. -/
theorem test_bufWr : isNext (exec (.bufWr 2 0x00) line8)
    { line8 with buf := [(0, 0x68), (1, 0x69), (2, 0x00)] } = true := by decide

/-- V-BUF-04. -/
theorem test_bufWr_faults :
    got (exec (.bufWr 4 0x00) r4) State.fault = some (some ⟨.addrRange, 0x80000400⟩) := by decide

/-- V-STA-03 and V-STA-04. -/
theorem test_statusRd :
    got (exec .statusRd line8) State.results = some [0x00000209] ∧
    got (exec .statusRd ovf4) State.results = some [0x0000000A] := by decide

/-- V-STA-02 and V-STA-05. -/
theorem test_statusRd_echo_and_full :
    got (exec .statusRd (State.resetWith ⟨8, .lfOnly, true⟩)) State.results = some [0x00000004] ∧
    got (exec .statusRd full4) State.results = some [0x00000408] := by decide

/-- V-LEN-02: kept after the release. -/
theorem test_lenRd : got (exec .lenRd { line8 with phase := .run, cursor := 0 }) State.results = some [3] := by decide

/-! ### The step -/

/-- One step after reset runs a presented op word and a presented byte (log 9). -/
theorem test_step_withFetchWord :
    got (step (State.reset.withFetchWord 32 0x20000041)) State.crc = some 0xB915 ∧
    got (step (State.reset.withFetchWord 8 0x68)) State.buf = some [(0, 0x68)] := by decide

/-- V-LFS-20: the byte waits while a line is pending. -/
theorem test_step_holds_the_channel :
    got (step { line8 with channel := [0x78], turns := [.channel] }) State.channel = some [0x78] := by decide

/-- An illegal word faults (V-DEC-11). -/
theorem test_step_illegal :
    got (step (State.withFetchWord r4 32 0xFFFFFFFF)) State.fault = some (some ⟨.illegalOp, 0xFFFFFFFF⟩) := by decide

/-- RESET leaves the faulted state (R220). -/
theorem test_step_reset : isNext (step { faulted4 with turns := [.reset] }) r4 = true := by decide

/-! ### The assembler -/

/-- R80: `CRC_BUF 65535` and `BUF_WR 0x1234, 0xAB`. -/
theorem test_assemble_numbers :
    Assembly.assembleLine ['C', 'R', 'C', '_', 'B', 'U', 'F', ' ', '6', '5', '5', '3', '5'] = some [.crcBuf 65535] ∧
    Assembly.assembleLine ['B', 'U', 'F', '_', 'W', 'R', ' ', '0', 'x', '1', '2', '3', '4', ',', ' ', '0', 'x', 'A', 'B'] =
      some [.bufWr 0x1234 0xAB] := by decide

/-- R78: an agent prefix, and a character with an escape. -/
theorem test_assemble_characters :
    Assembly.assembleLine (['c', 'h', ':', ' ', 'R', 'X', '_', 'B', 'Y', 'T', 'E', ' '] ++
      [Assembly.quote, Assembly.backslash, 'n', Assembly.quote]) = some [.rxByte 0x0A] ∧
    Assembly.assembleLine ['c', 't', ':', ' ', 'R', 'X', '_', 'B', 'Y', 'T', 'E', ' ', '6', '5'] = none := by decide

/-- R79: the pseudo-operations. -/
theorem test_assemble_pseudo :
    Assembly.assembleLine (['C', 'R', 'C', '1', '6', ' '] ++ [Assembly.dquote, 'h', 'i', Assembly.dquote]) =
      some [.crcInit, .crcFeed 0x68, .crcFeed 0x69] ∧
    Assembly.assembleLine ['c', 't', ':', ' ', 'N', 'U', 'L', '_', 'T', 'E', 'R', 'M', ' ', '3'] = some [.bufWr 2 0x00] := by
  decide

/-! ### Witnesses: a state and operands that meet the hypotheses of each statement, clause by clause -/

theorem test_witness_EncodeOfDecode : decode (.op 0x801234AB) = .ok (.bufWr 0x1234 0xAB) := rfl

/-- Each of the four conditions at a boundary, and a legal word that meets none; then the step's hypotheses. -/
theorem test_witness_IllegalWordsFault :
    (∃ e, decodeOp 0xB0000000 = .error e) ∧ 0xB ≤ (opFields 0xB0000000).op.toNat ∧ (opFields 0x01000000).rsv ≠ 0 ∧
    (opFields 0x20000100).a ≠ 0 ∧ (opFields 0x30000001).d ≠ 0 ∧ (opFields 0xA0000000).op.toNat = 0xA ∧
    r4.fault = none ∧ decodeOp 0xFFFFFFFF = .error .rsvNonzero :=
  ⟨⟨_, rfl⟩, by decide, by decide, by decide, by decide, by decide, rfl, rfl⟩

/-- The state of the step statements: one turn and one word for each agent. -/
def loaded (u : Turn) : State := { line8 with turns := [u], channel := [0x78], controller := [0x50000000] }

theorem test_witness_ControllerStepRunsTheOperation :
    (loaded .controller).turns = .controller :: [] ∧ (loaded .controller).controller = 0x50000000 :: [] ∧
    (loaded .controller).fault = none ∧ decodeOp 0x50000000 = .ok .lfsRelease ∧ decodeOp 0xB0000000 = .error .reservedOp :=
  ⟨rfl, rfl, rfl, rfl, rfl⟩

theorem test_witness_ChannelStepReceivesTheByte :
    ({ hi8 with turns := [.channel], channel := [0x0A] } : State).turns = .channel :: [] ∧
    ({ hi8 with turns := [.channel], channel := [0x0A] } : State).channel = 0x0A :: [] ∧
    ({ hi8 with turns := [.channel], channel := [0x0A] } : State).rxReady = true := by decide

/-- A pending phase, and a ready port with no byte waiting. -/
theorem test_witness_HeldByteWaitsInTheChannel :
    ((loaded .channel).turns = .channel :: [] ∧ (loaded .channel).rxReady = false) ∧
    (({ r4 with turns := [.channel] } : State).channel = [] ∧ ({ r4 with turns := [.channel] } : State).rxReady = true) := by
  decide

theorem test_witness_FaultedBlockHasNoStep :
    faulted4.fault = some ⟨.addrRange, 0x70000400⟩ ∧
    ({ faulted4 with turns := [.controller] } : State).turns = .controller :: [] := by decide

/-- A faulted block and one with a line pending. -/
theorem test_witness_ResetSetsEveryPieceOfState :
    ({ faulted4 with turns := [.reset] } : State).turns = .reset :: [] ∧ (loaded .reset).turns = .reset :: [] := by decide

theorem test_witness_ResetKeepsWhatWaits : (loaded .reset).turns = .reset :: [] ∧ (loaded .reset).channel = [0x78] := by
  decide

theorem test_witness_IdleStepChangesNothing : State.reset.turns = [] ∧ line8.turns = [] := by decide

theorem test_witness_CrcInitSetsTheInitialValue :
    line8.fault = none ∧ (opFields 0x10000001).op = 0x1 ∧ (0x10000001 : Word) ≠ 0x10000000 := by decide

theorem test_witness_CrcFeedFoldsOneByte :
    ovf4.fault = none ∧ (opFields 0x20000100).op = 0x2 ∧ ¬ ∃ d, (0x20000100 : Word) = opWord 0x2 0 d :=
  ⟨rfl, by decide, fun ⟨_, h⟩ => by
    have e : (opFields 0x20000100).a = 0 := congrArg OpFields.a (h ▸ opFields_opWord _ _ _)
    exact absurd e (by decide)⟩

/-- n = C + 1; n = C with no cell written; n = C with every cell written, and n = 0 with none. -/
theorem test_witness_CrcBufComputesTheCrcOfTheBuffer :
    (r4.fault = none ∧ r4.cap < (5 : Half).toNat) ∧
    ((4 : Half).toNat ≤ r4.cap ∧ 3 < (4 : Half).toNat ∧ r4.written 3 = false) ∧
    (full4.fault = none ∧ (4 : Half).toNat ≤ full4.cap ∧ [0x61, 0x62, 0x63, 0x64].length = (4 : Half).toNat ∧
      HoldsFirst full4 [0x61, 0x62, 0x63, 0x64]) ∧
    ((0 : Half).toNat ≤ r4.cap ∧ ([] : List Byte).length = (0 : Half).toNat ∧ HoldsFirst r4 []) := by decide

/-- Its illegal words, at D = 1. -/
theorem test_witness_CrcBufComputesTheCrcOfTheBuffer_illegal :
    (opFields 0x30000001).op = 0x3 ∧ (¬ ∃ n, (0x30000001 : Word) = opWord 0x3 n 0) ∧ r4.fault = none :=
  ⟨by decide, fun ⟨_, h⟩ => by
    have e : (opFields 0x30000001).d = 0 := congrArg OpFields.d (h ▸ opFields_opWord _ _ _)
    exact absurd e (by decide), rfl⟩

theorem test_witness_CrcRdReturnsTheRegister : line8.fault = none := rfl

theorem test_witness_CrcBufEqualsInitThenFeeds :
    hi8.fault = none ∧ (2 : Half).toNat ≤ hi8.cap ∧ [0x68, 0x69].length = (2 : Half).toNat ∧ HoldsFirst hi8 [0x68, 0x69] := by
  decide

theorem test_witness_DelimitersOfEachMode :
    (⟨4, .lfOnly, false⟩ : Params).delimMode = .lfOnly ∧ (inst 4).delimMode = .crOrLf := by decide

theorem test_witness_RxByteOverflows : full4.fault = none ∧ full4.phase = .run ∧ full4.cap ≤ full4.cursor.toNat := by decide

/-- The last cell of the buffer, with a delimiter and with another byte. -/
theorem test_witness_RxByteIsAccepted :
    ({ full4 with cursor := 3 } : State).fault = none ∧ ({ full4 with cursor := 3 } : State).phase = .run ∧
    (3 : Half).toNat < full4.cap ∧ isDelim full4.params 0x0A = true ∧ isDelim full4.params 0x64 = false := by decide

/-- RUN, LINE_PENDING, and OVF_PENDING with a delimiter held and with another byte. -/
theorem test_witness_LfsReleaseByPhase :
    ((opFields 0x50000001).op = 0x5 ∧ (0x50000001 : Word) ≠ 0x50000000) ∧
    (r4.fault = none ∧ r4.phase = .run) ∧ (line8.fault = none ∧ line8.phase = .linePending) ∧
    (ovf4.fault = none ∧ ovf4.phase = .ovfPending ∧ ovf4.held = some 0x65 ∧ isDelim ovf4.params 0x65 = false) ∧
    (ovfLf4.fault = none ∧ ovfLf4.phase = .ovfPending ∧ ovfLf4.held = some 0x0A ∧ isDelim ovfLf4.params 0x0A = true) := by
  decide

theorem test_witness_HeldByteArrivesAtCursorZero :
    ovf4.params.wf = true ∧ ovf4.fault = none ∧ ovf4.phase = .ovfPending ∧ ovf4.held = some 0x65 := by decide

theorem test_witness_LfsClearResetsTheCursor :
    line8.fault = none ∧ (opFields 0x61000000).op = 0x6 ∧ (0x61000000 : Word) ≠ 0x60000000 := by decide

/-- A byte that overflows, the last byte of a line, and the release of an overflow. -/
theorem test_witness_EventsOfOneStep :
    exec (.rxByte 0x65) full4 = .next ovf4 ∧ exec (.rxByte 0x0A) hi8 = .next line8 ∧
    ∃ t, exec .lfsRelease ovfLf4 = .next t :=
  ⟨eq_next_of_isNext (by decide), eq_next_of_isNext (by decide), exists_next_of_hasNext (by decide)⟩

/-- The longest line of a buffer of 4 cells, and the empty line. -/
theorem test_witness_FramingOfOneLine :
    r4.fault = none ∧ r4.phase = .run ∧ r4.cursor = 0 ∧ [0x61, 0x62, 0x63].length + 1 ≤ r4.cap ∧
    (∀ b, b ∈ [0x61, 0x62, 0x63] → isDelim r4.params b = false) ∧ isDelim r4.params 0x0D = true ∧
    ([] : List Byte).length + 1 ≤ r4.cap := by decide

/-- Reads and CRC operations between the bytes of "a" and LF. -/
theorem test_witness_FramingUnderInterleaving :
    r4.fault = none ∧ r4.phase = .run ∧ r4.cursor = 0 ∧ [0x61].length + 1 ≤ r4.cap ∧
    (∀ b, b ∈ [0x61] → isDelim r4.params b = false) ∧ isDelim r4.params 0x0A = true ∧
    (∀ i, i ∈ [.statusRd, .rxByte 0x61, .bufRd 0, .rxByte 0x0A, .crcBuf 2] → i.port = .rx ∨ isBystander i = true) ∧
    rxBytes [.statusRd, .rxByte 0x61, .bufRd 0, .rxByte 0x0A, .crcBuf 2] = [0x61] ++ [0x0A] ∧
    ∃ t, runInstrs [.statusRd, .rxByte 0x61, .bufRd 0, .rxByte 0x0A, .crcBuf 2] r4 = .next t ∧ t.fault = none := by
  refine ⟨rfl, rfl, rfl, by decide, by decide, by decide, by decide, by decide, ?_⟩
  have h : got (runInstrs [.statusRd, .rxByte 0x61, .bufRd 0, .rxByte 0x0A, .crcBuf 2] r4) State.fault = some none := by
    decide
  unfold got at h
  split at h
  · exact ⟨_, ‹_›, by simpa using h⟩
  · cases h
  · cases h

/-- C = 4: "e" overflows, "fg" and LF fill the buffer, and the next line is the longest. -/
theorem test_witness_OverflowRecovery :
    full4.fault = none ∧ full4.phase = .run ∧ full4.cap ≤ full4.cursor.toNat ∧ [0x66, 0x67].length + 2 ≤ full4.cap ∧
    [0x61, 0x62, 0x63].length + 1 ≤ full4.cap ∧
    (∀ x, x ∈ 0x65 :: [0x66, 0x67] ++ [0x61, 0x62, 0x63] → isDelim full4.params x = false) ∧
    isDelim full4.params 0x0A = true ∧ isDelim full4.params 0x0D = true := by decide

theorem test_witness_NopChangesNothing :
    line8.fault = none ∧ (opFields 0x00000100).op = 0x0 ∧ (0x00000100 : Word) ≠ 0x00000000 := by decide

/-- a = C; a = C - 1 not written; a = C - 1 written. -/
theorem test_witness_BufRdReturnsTheByte :
    (r4.fault = none ∧ r4.cap ≤ (4 : Half).toNat) ∧ ((3 : Half).toNat < r4.cap ∧ r4.written (3 : Half).toNat = false) ∧
    (full4.fault = none ∧ (3 : Half).toNat < full4.cap ∧ Memory.read full4.buf (3 : Half).toNat = some 0x64) := by decide

theorem test_witness_BufWrWritesTheCell :
    r4.fault = none ∧ r4.cap ≤ (4 : Half).toNat ∧ (3 : Half).toNat < r4.cap := by decide

/-- Its illegal words, at RSV = 1. -/
theorem test_witness_BufWrWritesTheCell_illegal :
    (opFields 0x81000000).op = 0x8 ∧ (¬ ∃ a d, (0x81000000 : Word) = opWord 0x8 a d) ∧ r4.fault = none :=
  ⟨by decide, fun ⟨_, _, h⟩ => by
    have e : (opFields 0x81000000).rsv = 0 := congrArg OpFields.rsv (h ▸ opFields_opWord _ _ _)
    exact absurd e (by decide), rfl⟩

theorem test_witness_StatusRdReturnsTheStatusWord : line8.fault = none ∧ ovf4.fault = none ∧ faulted4.fault ≠ none := by
  decide

theorem test_witness_LenRdReturnsTheLength : line8.fault = none := rfl

theorem test_witness_CrcOperationsFrame :
    exec .crcInit r4 = .next r4 ∧ exec (.crcFeed 0x41) r4 = .next { r4 with crc := 0xB915 } ∧
    exec (.crcBuf 5) r4 = .next { r4 with fault := some ⟨.addrRange, 0x30000500⟩ } :=
  ⟨eq_next_of_isNext (by decide), eq_next_of_isNext (by decide), eq_next_of_isNext (by decide)⟩

theorem test_witness_ReadsHaveNoSideEffect :
    exec (.bufRd 3) full4 = .next { full4 with results := [0x64] } ∧
    exec .statusRd line8 = .next { line8 with results := [0x209] } ∧
    exec .lenRd line8 = .next { line8 with results := [3] } ∧ exec .crcRd r4 = .next { r4 with results := [0xFFFF] } ∧
    exec (.bufRd 4) r4 = .next { r4 with fault := some ⟨.addrRange, 0x70000400⟩ } :=
  ⟨eq_next_of_isNext (by decide), eq_next_of_isNext (by decide), eq_next_of_isNext (by decide),
    eq_next_of_isNext (by decide), eq_next_of_isNext (by decide)⟩

theorem test_witness_ClearAndLineReleaseFrame :
    exec .lfsClear hi8 = .next { hi8 with cursor := 0 } ∧ line8.phase = .linePending ∧
    exec .lfsRelease line8 = .next { line8 with cursor := 0, phase := .run } :=
  ⟨eq_next_of_isNext (by decide), rfl, eq_next_of_isNext (by decide)⟩

/-- Cell 1 after a write of cell 0, after the byte stored in cell 2, and after the release that stores cell 0. -/
theorem test_witness_BufferFrameOfEveryOperation :
    (∃ t, exec (.bufWr 0 0x41) full4 = .next t) ∧ (0 : Half).toNat < full4.cap ∧ 1 ≠ (0 : Half).toNat ∧
    exec (.rxByte 0x0A) hi8 = .next line8 ∧ hi8.cursor.toNat < hi8.cap ∧ 1 ≠ hi8.cursor.toNat ∧
    (∃ t, exec .lfsRelease ovf4 = .next t) ∧ ovf4.phase = .ovfPending ∧ 1 ≠ 0 :=
  ⟨exists_next_of_hasNext (by decide), by decide, by decide, eq_next_of_isNext (by decide), by decide, by decide,
    exists_next_of_hasNext (by decide), rfl, by decide⟩

theorem test_witness_OnlyCrcOperationsWriteCrc :
    exec (.crcFeed 0x41) r4 = .next { r4 with crc := 0xB915 } ∧ ({ r4 with crc := 0xB915 } : State).crc ≠ r4.crc :=
  ⟨eq_next_of_isNext (by decide), by decide⟩

theorem test_witness_LineLengthFollowsTheLineEvent :
    exec (.rxByte 0x0A) hi8 = .next line8 ∧ exec (.rxByte 0x65) full4 = .next ovf4 :=
  ⟨eq_next_of_isNext (by decide), eq_next_of_isNext (by decide)⟩

theorem test_witness_SynchronizerIgnoresCrc :
    exec (.rxByte 0x0A) hi8 = .next line8 ∧ exec .lfsClear hi8 = .next { hi8 with cursor := 0 } ∧
    ∃ t, exec .lfsRelease ovf4 = .next t :=
  ⟨eq_next_of_isNext (by decide), eq_next_of_isNext (by decide), exists_next_of_hasNext (by decide)⟩

/-- The state of a step that receives the last byte of a line. -/
def last8 : State := { hi8 with turns := [.channel], channel := [0x0A] }

theorem test_witness_InvKeptByEveryStep :
    Inv last8 ∧ Inv full4 ∧ Inv ovf4 ∧ Inv line8 ∧ step last8 = .next line8 :=
  ⟨by decide, by decide, by decide, by decide, eq_next_of_isNext (by decide)⟩

theorem test_witness_InvAtReset : (inst 1).wf = true ∧ (inst 65535).wf = true := by decide

/-- A line pending, and a write of its first byte. -/
theorem test_witness_PendingLineEndsInItsDelimiter :
    EndsInDelimiter line8 ∧ (∃ t, exec (.bufWr 0 0x41) line8 = .next t) ∧ (0 : Half).toNat ≠ line8.lineLen.toNat - 1 :=
  ⟨fun _ => ⟨0x0A, by decide, by decide⟩, exists_next_of_hasNext (by decide), by decide⟩

theorem test_witness_ParametersNeverChange : step last8 = .next line8 := eq_next_of_isNext (by decide)

theorem test_witness_EveryStepAnswersANextState : Inv (loaded .controller) ∧ Inv { ovf4 with turns := [.reset] } := by decide

theorem test_witness_FaultStaysUntilReset :
    faulted4.fault = some ⟨.addrRange, 0x70000400⟩ ∧ step faulted4 = .next faulted4 ∧
    step { faulted4 with turns := [.reset] } = .next r4 :=
  ⟨rfl, eq_next_of_isNext (by decide), eq_next_of_isNext (by decide)⟩

/-- A decoded operation that faults, and an illegal word. -/
theorem test_witness_FaultsArePrecise :
    runWord (.op 0x70000400) r4 = .next faulted4 ∧ faulted4.fault = some ⟨.addrRange, 0x70000400⟩ ∧
    runWord (.op 0xB0000000) r4 = .next { r4 with fault := some ⟨.illegalOp, 0xB0000000⟩ } :=
  ⟨eq_next_of_isNext (by decide), rfl, eq_next_of_isNext (by decide)⟩

/-- One operation for each row of the table of R190 that a decoded operation can raise. -/
theorem test_witness_FaultsOfEachOperation :
    got (exec (.bufRd 4) r4) State.fault = some (some ⟨.addrRange, 0x70000400⟩) ∧
    got (exec (.bufWr 4 0) r4) State.fault = some (some ⟨.addrRange, 0x80000400⟩) ∧
    got (exec (.crcBuf 5) r4) State.fault = some (some ⟨.addrRange, 0x30000500⟩) ∧
    got (exec (.bufRd 3) r4) State.fault = some (some ⟨.uninitRead, 0x70000300⟩) ∧
    got (exec (.crcBuf 4) r4) State.fault = some (some ⟨.uninitRead, 0x30000400⟩) ∧
    got (exec .lfsRelease r4) State.fault = some (some ⟨.protocolViolation, 0x50000000⟩) := by decide

theorem test_witness_OperationsThatNeverFault :
    exec (.rxByte 0x65) full4 = .next ovf4 ∧ exec .nop line8 = .next line8 :=
  ⟨eq_next_of_isNext (by decide), eq_next_of_isNext (by decide)⟩

theorem test_witness_TraceOnlyGrows :
    step last8 = .next line8 ∧ step { faulted4 with turns := [.reset] } = .next r4 :=
  ⟨eq_next_of_isNext (by decide), eq_next_of_isNext (by decide)⟩

theorem test_witness_WrittenCellStaysReadable : last8.written 1 = true ∧ step last8 = .next line8 :=
  ⟨by decide, eq_next_of_isNext (by decide)⟩

/-- A pending line with the channel's turn, with its release and with RESET. -/
theorem test_witness_PendingEndsOnlyByRelease :
    (loaded .channel).phase ≠ .run ∧ (∃ t, step (loaded .channel) = .next t) ∧
    got (step (loaded .controller)) State.phase = some .run ∧ got (step (loaded .reset)) State.phase = some .run :=
  ⟨by decide, exists_next_of_hasNext (by decide), by decide, by decide⟩

end Sys2Proof.Tests
end

/-! PROOFS. O50, the precise fault (00_scope.md R13): what decoding a legal op word says of its fields, and which
operations can enter the fault state. -/

namespace Sys2Proof

theorem decodeZ_ok {f : OpFields} {i j : Instr} (h : decodeZ f i = .ok j) : f.a = 0 ∧ f.d = 0 ∧ i = j := by
  unfold decodeZ at h
  split at h
  · cases h
  · split at h
    · cases h
    · cases h
      exact ⟨not_not.1 ‹_›, not_not.1 ‹_›, rfl⟩

theorem decodeD_ok {f : OpFields} {i : Byte → Instr} {j : Instr} (h : decodeD f i = .ok j) : f.a = 0 ∧ i f.d = j := by
  unfold decodeD at h
  split at h
  · cases h
  · cases h
    exact ⟨not_not.1 ‹_›, rfl⟩

theorem decodeA_ok {f : OpFields} {i : Half → Instr} {j : Instr} (h : decodeA f i = .ok j) : f.d = 0 ∧ i f.a = j := by
  unfold decodeA at h
  split at h
  · cases h
  · cases h
    exact ⟨not_not.1 ‹_›, rfl⟩

/-- A format Z operation whose word has only its OP code is encoded by the fields it was decoded from. -/
theorem encode_of_decodeZ {f : OpFields} {i j : Instr} (hi : encode i = .op (opWord f.op 0 0))
    (h : decodeZ f i = .ok j) : encode j = .op (opWord f.op f.a f.d) := by
  obtain ⟨ha, hd, rfl⟩ := decodeZ_ok h
  rw [hi, ha, hd]

theorem encode_of_decodeA {f : OpFields} {i : Half → Instr} {j : Instr} (hi : ∀ a, encode (i a) = .op (opWord f.op a 0))
    (h : decodeA f i = .ok j) : encode j = .op (opWord f.op f.a f.d) := by
  obtain ⟨hd, rfl⟩ := decodeA_ok h
  rw [hi, hd]

theorem encode_of_decodeD {f : OpFields} {i : Byte → Instr} {j : Instr} (hi : ∀ d, encode (i d) = .op (opWord f.op 0 d))
    (h : decodeD f i = .ok j) : encode j = .op (opWord f.op f.a f.d) := by
  obtain ⟨ha, rfl⟩ := decodeD_ok h
  rw [hi, ha]

/-- Fields that decode have RSV = 0, and the operation's word is made of the other three: one case per OP code. -/
theorem encode_of_decodeFields {f : OpFields} {i : Instr} (h : decodeFields f = .ok i) :
    f.rsv = 0 ∧ encode i = .op (opWord f.op f.a f.d) := by
  obtain ⟨op, rsv, a, d⟩ := f
  unfold decodeFields at h
  split at h
  · cases h
  · refine ⟨not_not.1 ‹_›, ?_⟩
    have hop : op = BitVec.ofNat 4 op.toNat := by simp
    generalize op.toNat = n at h hop
    subst hop
    split at h
    · exact encode_of_decodeZ rfl h
    · exact encode_of_decodeZ rfl h
    · exact encode_of_decodeD (fun _ => rfl) h
    · exact encode_of_decodeA (fun _ => rfl) h
    · exact encode_of_decodeZ rfl h
    · exact encode_of_decodeZ rfl h
    · exact encode_of_decodeZ rfl h
    · exact encode_of_decodeA (fun _ => rfl) h
    · cases h
      rfl
    · exact encode_of_decodeZ rfl h
    · exact encode_of_decodeZ rfl h
    · cases h

/-- An op word that decodes is the word of its operation (R71 to R77). -/
theorem encode_of_decodeOp {w : Word} {i : Instr} (h : decodeOp w = .ok i) : encode i = .op w := by
  obtain ⟨hrsv, he⟩ := encode_of_decodeFields h
  rw [he, opWord_opFields hrsv]

end Sys2Proof

namespace Sys2Proof.Machine

theorem opWordOf_of_decodeOp {w : Word} {i : Instr} (h : decodeOp w = .ok i) : opWordOf i = w := by
  rw [opWordOf, encode_of_decodeOp h]

@[simp] theorem State.accept_fault (s : State) (b : Byte) : (s.accept b).fault = s.fault := by
  cases hd : isDelim s.params b
  · rw [accept_other hd]
  · rw [accept_delim hd]

/-- An operation that enters the fault state is a control operation and does only that, with its own op word (R13, R191):
of the cases of an operation, all but the raised fault keep the empty record. -/
theorem exec_fault {i : Instr} {s t : State} {f : FaultRecord} (h : exec i s = .next t) (hf : t.fault = some f) :
    i.port = .control ∧ t = { s with fault := some f } ∧ f.word = opWordOf i := by
  obtain ⟨hs, hc⟩ := exec_cases h
  have raised : t.fault ≠ s.fault := by simp [hf, hs]
  obtain ⟨_, rfl⟩ | ⟨_, _, rfl⟩ | ⟨_, _, rfl⟩ | ⟨r, hi, rfl⟩ | ⟨_, _, rfl⟩ | ⟨_, _, _, _, rfl⟩ | ⟨_, rfl⟩ |
    ⟨_, _, _, _, rfl⟩ | ⟨_, _, _, _, rfl⟩ | ⟨_, _, _, _, rfl⟩ := hc
  case inr.inr.inr.inl =>
    obtain rfl : ⟨r, opWordOf i⟩ = f := Option.some.inj hf
    refine ⟨?_, rfl, rfl⟩
    obtain ⟨_, rfl⟩ | rfl | ⟨_, rfl⟩ | ⟨_, _, rfl⟩ := hi <;> rfl
  all_goals exact absurd (by simp) raised

/-- The two ways a presented word answers a next state: as the operation it decodes to, or as an illegal op word. -/
theorem runWord_cases {w : PortWord} {s t : State} (h : runWord w s = .next t) :
    (∃ i, decode w = .ok i ∧ exec i s = .next t) ∨
    (∃ v, w = .op v ∧ s.fault = none ∧ t = s.raise .illegalOp v) := by
  unfold runWord at h
  split at h
  · exact .inl ⟨_, ‹_›, h⟩
  · cases w with
    | op v =>
      obtain ⟨hs, h⟩ := whenLive_next h
      cases h
      exact .inr ⟨v, rfl, hs, rfl⟩
    | rx b => cases ‹decode (.rx b) = .error _›

/-- Settles O50: a decoded word that faults is an op word, and the record holds its encoding, which is the word itself; an
illegal word is recorded as it is. -/
theorem faultsArePrecise : Obligations.FaultsArePrecise := by
  unfold Obligations.FaultsArePrecise
  intro w s t f h hf
  obtain ⟨i, hd, he⟩ | ⟨v, rfl, _, rfl⟩ := runWord_cases h
  · obtain ⟨hp, rfl, hw⟩ := exec_fault he hf
    cases w with
    | op v => exact ⟨rfl, by rw [hw, opWordOf_of_decodeOp hd]⟩
    | rx b =>
      cases hd
      cases hp
  · obtain rfl : ⟨.illegalOp, v⟩ = f := Option.some.inj hf
    exact ⟨rfl, rfl⟩

end Sys2Proof.Machine

namespace Sys2Proof.Machine

theorem linePendingOut_iff (s : State) : s.linePendingOut = true ↔ s.phase = .linePending ∧ s.fault = none := by
  simp [State.linePendingOut]

theorem ovfPendingOut_iff (s : State) : s.ovfPendingOut = true ↔ s.phase = .ovfPending ∧ s.fault = none := by
  simp [State.ovfPendingOut]

/-- The two pending outputs ask for two different phases of the one state (R32). -/
theorem not_linePendingOut_and_ovfPendingOut (s : State) : ¬(s.linePendingOut = true ∧ s.ovfPendingOut = true) := by
  rintro ⟨hl, ho⟩
  obtain ⟨hline, _⟩ := (linePendingOut_iff s).1 hl
  obtain ⟨hovf, _⟩ := (ovfPendingOut_iff s).1 ho
  exact Phase.noConfusion (hline.symm.trans hovf)

/-- Settles O56: each output is its phase without a fault, and no state is in both pending phases. -/
theorem levelOutputsOfTheState : Obligations.LevelOutputsOfTheState := by
  unfold Obligations.LevelOutputsOfTheState
  exact fun s => ⟨rxReady_iff s, linePendingOut_iff s, ovfPendingOut_iff s, not_linePendingOut_and_ovfPendingOut s⟩

end Sys2Proof.Machine

/-! PROOFS. O3, the illegal op words (30_encoding.md R76): when each format's decoder refuses its fields, how many rows of
the opcode map a word can select, and the step of a word that does not decode. -/

namespace Sys2Proof

/-- A check in front of a decoder: the fields are refused by the check or by what follows it. -/
theorem exists_error_ite_iff {c : Prop} [Decidable c] {x : Illegal} {r : Except Illegal Instr} :
    (∃ e, (if c then .error x else r) = Except.error e) ↔ c ∨ ∃ e, r = .error e := by
  by_cases h : c <;> simp [h]

theorem decodeZ_error_iff {f : OpFields} {i : Instr} : (∃ e, decodeZ f i = .error e) ↔ f.a ≠ 0 ∨ f.d ≠ 0 := by
  rw [decodeZ, exists_error_ite_iff, exists_error_ite_iff]
  simp

theorem decodeD_error_iff {f : OpFields} {i : Byte → Instr} : (∃ e, decodeD f i = .error e) ↔ f.a ≠ 0 := by
  rw [decodeD, exists_error_ite_iff]
  simp

theorem decodeA_error_iff {f : OpFields} {i : Half → Instr} : (∃ e, decodeA f i = .error e) ↔ f.d ≠ 0 := by
  rw [decodeA, exists_error_ite_iff]
  simp

/-- One of R76's four conditions holds of the fields. -/
def OpFields.IsIllegal (f : OpFields) : Prop :=
  0xB ≤ f.op.toNat ∨ f.rsv ≠ 0 ∨ (f.op ≠ 0x3 ∧ f.op ≠ 0x7 ∧ f.op ≠ 0x8 ∧ f.a ≠ 0) ∨
    (f.op ≠ 0x2 ∧ f.op ≠ 0x8 ∧ f.d ≠ 0)

/-- One case per OP code: its format says which of A and D must be 0, and the codes without a format are the reserved
ones. -/
theorem decodeFields_error_iff (f : OpFields) : (∃ e, decodeFields f = .error e) ↔ f.IsIllegal := by
  obtain ⟨op, rsv, a, d⟩ := f
  unfold decodeFields
  split
  case isTrue hrsv => exact ⟨fun _ => .inr (.inl hrsv), fun _ => ⟨_, rfl⟩⟩
  case isFalse hrsv =>
    obtain rfl : rsv = 0 := not_not.1 hrsv
    have hop : op = BitVec.ofNat 4 op.toNat := by simp
    split
    case h_12 =>
      have hreserved : 0xB ≤ op.toNat := by grind
      exact ⟨fun _ => .inl hreserved, fun _ => ⟨_, rfl⟩⟩
    all_goals
      rename_i h
      rw [h] at hop
      subst hop
      simp [decodeZ_error_iff, decodeD_error_iff, decodeA_error_iff, OpFields.IsIllegal]

/-- Every mask of the opcode map covers OP, so a word selects only rows of its own OP code. -/
theorem op_of_selects {r : OpRow} {w : Word} (hr : r ∈ opTable) (h : r.selects w = true) :
    (opFields r.pattern).op = (opFields w).op := by
  have hmask : ∀ r ∈ opTable, (opFields r.mask).op = BitVec.allOnes 4 := by decide
  have hand : (opFields (w &&& r.mask)).op = (opFields w).op &&& (opFields r.mask).op := BitVec.extractLsb'_and
  rw [← beq_iff_eq.1 h, hand, hmask r hr, BitVec.and_allOnes]

/-- A word selects at most one row of the opcode map: no two rows have the same OP code. -/
theorem length_selected_le_one (w : Word) : (opTable.filter fun r => r.selects w).length ≤ 1 := by
  have hrows : ∀ op : BitVec 4, opTable.countP (fun r => (opFields r.pattern).op == op) ≤ 1 := by decide
  rw [← List.countP_eq_length_filter]
  calc opTable.countP (fun r => r.selects w)
      ≤ opTable.countP (fun r => (opFields r.pattern).op == (opFields w).op) :=
        List.countP_mono_left fun r hr h => beq_iff_eq.2 (op_of_selects hr h)
    _ ≤ 1 := hrows _

theorem rowSelected (i : Instr) : Laws.RowSelected.Statement i := by
  cases i with
  | nop => exact Laws.RowSelected.nop
  | crcInit => exact Laws.RowSelected.crcInit
  | crcFeed d => exact Laws.RowSelected.crcFeed d
  | crcBuf n => exact Laws.RowSelected.crcBuf n
  | crcRd => exact Laws.RowSelected.crcRd
  | lfsRelease => exact Laws.RowSelected.lfsRelease
  | lfsClear => exact Laws.RowSelected.lfsClear
  | bufRd a => exact Laws.RowSelected.bufRd a
  | bufWr a d => exact Laws.RowSelected.bufWr a d
  | statusRd => exact Laws.RowSelected.statusRd
  | lenRd => exact Laws.RowSelected.lenRd
  | rxByte b => exact Laws.RowSelected.rxByte b

/-- A word that decodes selects the row of its operation, since it is that operation's encoding. -/
theorem exists_selected_of_decodeOp {w : Word} {i : Instr} (h : decodeOp w = .ok i) :
    ∃ r ∈ opTable, r.selects w = true := by
  have hi := rowSelected i
  rw [Laws.RowSelected.Statement, encode_of_decodeOp h] at hi
  obtain ⟨k, _, _, hsel⟩ := hi
  obtain ⟨r, hr, hsel⟩ := Option.map_eq_some_iff.1 hsel
  exact ⟨r, List.mem_of_getElem? hr, hsel⟩

theorem length_selected_of_decodeOp {w : Word} {i : Instr} (h : decodeOp w = .ok i) :
    (opTable.filter fun r => r.selects w).length = 1 := by
  obtain ⟨r, hr, hsel⟩ := exists_selected_of_decodeOp h
  exact (length_selected_le_one w).antisymm (List.length_pos_of_mem (List.mem_filter.2 ⟨hr, hsel⟩))

end Sys2Proof

namespace Sys2Proof.Machine

theorem runWord_illegal {s : State} {w : Word} {e : Illegal} (hs : s.fault = none) (h : decodeOp w = .error e) :
    runWord (.op w) s = .next (s.raise .illegalOp w) := by
  have hd : decode (.op w) = .error e := h
  rw [runWord, hd]
  exact whenLive_of_live hs

/-- Settles O3: R76's four conditions by OP code, one row for a word that decodes, and the step of one that does not. -/
theorem illegalWordsFault : Obligations.IllegalWordsFault := by
  unfold Obligations.IllegalWordsFault
  refine ⟨fun w => decodeFields_error_iff (opFields w), fun w => ?_, fun _ _ _ hs h => runWord_illegal hs h⟩
  cases h : decodeOp w with
  | error e => exact .inl ⟨e, rfl⟩
  | ok i => exact .inr (length_selected_of_decodeOp h)

end Sys2Proof.Machine

/-! PROOFS. The words of one operation (30_encoding.md R71 to R77): an op word decodes to an operation exactly when it is
the operation's encoding, and a word that breaks one of R76's conditions raises IllegalOp. -/

namespace Sys2Proof

theorem decodeOp_opWord (op : BitVec 4) (a : Half) (d : Byte) : decodeOp (opWord op a d) = decodeFields ⟨op, 0, a, d⟩ := by
  rw [decodeOp, opFields_opWord]

theorem decodeOp_of_encode {w : Word} {i : Instr} (h : encode i = .op w) : decodeOp w = .ok i := by
  cases i with
  | rxByte b => cases h
  | _ =>
    cases h
    exact decodeOp_opWord _ _ _

theorem decodeOp_eq_ok_iff {w : Word} {i : Instr} : decodeOp w = .ok i ↔ encode i = .op w :=
  ⟨encode_of_decodeOp, decodeOp_of_encode⟩

/-- One control operation has one word. -/
theorem decodeOp_eq_ok_iff_eq {w v : Word} {i : Instr} (hi : encode i = .op v) : decodeOp w = .ok i ↔ w = v := by
  rw [decodeOp_eq_ok_iff, hi, PortWord.op.injEq, eq_comm]

end Sys2Proof

namespace Sys2Proof.Machine

/-- The legal words of an OP code may be looked for among those with RSV = 0, which are made of OP, A and D. -/
theorem otherWordsAreIllegal {op : BitVec 4} {legal : Word → Prop}
    (h : ∀ a d, ¬ OpFields.IsIllegal ⟨op, 0, a, d⟩ → legal (opWord op a d)) : OtherWordsAreIllegal op legal := by
  rintro w s rfl hw hs
  have hillegal : (opFields w).IsIllegal := by
    by_contra hlegal
    have hrsv : (opFields w).rsv = 0 := by_contra fun hne => hlegal (.inr (.inl hne))
    refine hw (opWord_opFields hrsv ▸ h (opFields w).a (opFields w).d ?_)
    rwa [← hrsv]
  obtain ⟨e, he⟩ := (decodeFields_error_iff (opFields w)).2 hillegal
  exact runWord_illegal hs he

end Sys2Proof.Machine

/-! PROOFS. O19, CRC_BUF (40_crc.md R106): what its length operand answers in each of the three cases, and what the
operation makes of that answer. -/

namespace Sys2Proof.Machine

theorem written_eq_false_iff {s : State} {a : Nat} : s.written a = false ↔ Memory.read s.buf a = none := by
  simp [State.written]

theorem bytesOperand_past_capacity {s : State} {n : Half} (h : s.cap < n.toNat) :
    bytesOperand s n = .error .addrRange := by
  obtain ⟨_, he⟩ | ⟨hle, _⟩ | ⟨_, hle, _⟩ := bytesOperand_cases s n
  · exact he
  · omega
  · omega

theorem bytesOperand_unwritten {s : State} {n : Half} (hle : n.toNat ≤ s.cap)
    (h : ∃ a, a < n.toNat ∧ s.written a = false) : bytesOperand s n = .error .uninitRead := by
  have hnone : Memory.readFirst s.buf n.toNat = none := by
    simpa only [Memory.readFirst_eq_none, written_eq_false_iff] using h
  obtain ⟨hlt, _⟩ | ⟨_, _, he⟩ | ⟨bs, _, hsome, _⟩ := bytesOperand_cases s n
  · omega
  · exact he
  · rw [hnone] at hsome
    cases hsome

theorem bytesOperand_holdsFirst {s : State} {n : Half} {bs : List Byte} (hle : n.toNat ≤ s.cap)
    (hlen : bs.length = n.toNat) (h : HoldsFirst s bs) : bytesOperand s n = .ok bs := by
  have hsome : Memory.readFirst s.buf n.toNat = some bs :=
    (Memory.readFirst_eq_some s.buf n.toNat bs).2 ⟨hlen, hlen ▸ h⟩
  obtain ⟨hlt, _⟩ | ⟨_, hnone, _⟩ | ⟨cs, _, hcs, he⟩ := bytesOperand_cases s n
  · omega
  · rw [hsome] at hnone
    cases hnone
  · rw [hsome] at hcs
    cases hcs
    exact he

theorem exec_crcBuf_of_error {s : State} {n : Half} {r : FaultReason} (hs : s.fault = none)
    (h : bytesOperand s n = .error r) : exec (.crcBuf n) s = .next (s.raise r (opWord 0x3 n 0)) := by
  rw [exec, execCrcBuf, whenLive_of_live hs, h]
  rfl

theorem exec_crcBuf_of_ok {s : State} {n : Half} {bs : List Byte} (hs : s.fault = none)
    (h : bytesOperand s n = .ok bs) : exec (.crcBuf n) s = .next (s.setCrc (crc16 bs)) := by
  rw [exec, execCrcBuf, whenLive_of_live hs, h]

/-- With RSV = 0, what is left of R76 for OP 3 is D = 0. -/
theorem otherWordsAreIllegal_crcBuf : OtherWordsAreIllegal 0x3 (fun w => ∃ n, w = opWord 0x3 n 0) := by
  refine otherWordsAreIllegal fun a d hlegal => ?_
  obtain rfl : d = 0 := by simpa [OpFields.IsIllegal] using hlegal
  exact ⟨a, rfl⟩

/-- Settles O19: its words from the decoder, and one case per answer of its length operand. -/
theorem crcBufComputesTheCrcOfTheBuffer : Obligations.CrcBufComputesTheCrcOfTheBuffer := by
  unfold Obligations.CrcBufComputesTheCrcOfTheBuffer
  refine ⟨fun w n => decodeOp_eq_ok_iff_eq rfl, otherWordsAreIllegal_crcBuf, fun s n hs => ⟨fun h => ?_, fun hle h => ?_,
    fun bs hle hlen h => ?_⟩⟩
  · exact exec_crcBuf_of_error hs (bytesOperand_past_capacity h)
  · exact exec_crcBuf_of_error hs (bytesOperand_unwritten hle h)
  · exact exec_crcBuf_of_ok hs (bytesOperand_holdsFirst hle hlen h)

end Sys2Proof.Machine

/-! PROOFS. O17 and O18, CRC_INIT and CRC_FEED (40_crc.md R104, R105). -/

namespace Sys2Proof.Machine

theorem exec_crcInit_of_live {s : State} (hs : s.fault = none) : exec .crcInit s = .next (s.setCrc crcInitial) :=
  whenLive_of_live hs

theorem exec_crcFeed_of_live {s : State} (d : Byte) (hs : s.fault = none) :
    exec (.crcFeed d) s = .next (s.setCrc (crcStep s.crc d)) :=
  whenLive_of_live hs

/-- The step by the table itself (R102): the high byte is the register shifted right, with no bit cut off. -/
theorem crcStep_eq_getD (c : Half) (b : Byte) :
    crcStep c b = (c <<< 8) ^^^ crcTable.getD ((c >>> 8).toNat ^^^ b.toNat) 0 := by
  have hhigh : ((c >>> 8).truncate 8).toNat = (c >>> 8).toNat := by
    have hc := c.isLt
    rw [BitVec.toNat_setWidth, BitVec.toNat_ushiftRight, Nat.shiftRight_eq_div_pow]
    omega
  rw [crcStep, crcEntry, BitVec.toNat_xor, hhigh]

/-- With RSV = 0, what is left of R76 for OP 1 is A = 0 and D = 0. -/
theorem otherWordsAreIllegal_crcInit : OtherWordsAreIllegal 0x1 (fun w => w = 0x10000000) := by
  refine otherWordsAreIllegal fun a d hlegal => ?_
  obtain ⟨rfl, rfl⟩ : a = 0 ∧ d = 0 := by simpa [OpFields.IsIllegal] using hlegal
  rfl

/-- With RSV = 0, what is left of R76 for OP 2 is A = 0. -/
theorem otherWordsAreIllegal_crcFeed : OtherWordsAreIllegal 0x2 (fun w => ∃ d, w = opWord 0x2 0 d) := by
  refine otherWordsAreIllegal fun a d hlegal => ?_
  obtain rfl : a = 0 := by simpa [OpFields.IsIllegal] using hlegal
  exact ⟨d, rfl⟩

/-- Settles O17: its word and its illegal neighbours from the decoder, and its effect in a live block. -/
theorem crcInitSetsTheInitialValue : Obligations.CrcInitSetsTheInitialValue := by
  unfold Obligations.CrcInitSetsTheInitialValue
  exact ⟨fun w => decodeOp_eq_ok_iff_eq rfl, otherWordsAreIllegal_crcInit, fun s hs => exec_crcInit_of_live hs⟩

/-- Settles O18: as for CRC_INIT, with the CRC step written as its table lookup. -/
theorem crcFeedFoldsOneByte : Obligations.CrcFeedFoldsOneByte := by
  unfold Obligations.CrcFeedFoldsOneByte
  refine ⟨fun w d => decodeOp_eq_ok_iff_eq rfl, otherWordsAreIllegal_crcFeed, fun s d hs => ?_⟩
  rw [exec_crcFeed_of_live d hs, crcStep_eq_getD]
  rfl

end Sys2Proof.Machine

/-! PROOFS. The words of a format Z operation (30_encoding.md R72, R76), and the synchronizer: O23 and O24, RX_BYTE;
O25, LFS_RELEASE; O27, LFS_CLEAR (41_lfs.md R130 to R145). -/

namespace Sys2Proof.Machine

/-- An OP code of format Z has one legal word: with RSV = 0, what is left of R76 is A = 0 and D = 0. -/
theorem otherWordsAreIllegal_formatZ {op : BitVec 4} (h : formatOf op = some .z) :
    OtherWordsAreIllegal op (fun w => w = opWord op 0 0) := by
  have usesNoOperand : ∀ op, formatOf op = some .z → op ≠ 0x2 ∧ op ≠ 0x3 ∧ op ≠ 0x7 ∧ op ≠ 0x8 := by decide
  obtain ⟨h2, h3, h7, h8⟩ := usesNoOperand op h
  refine otherWordsAreIllegal fun a d hlegal => ?_
  have ha : a = 0 := by_contra fun ha => hlegal (.inr (.inr (.inl ⟨h3, h7, h8, ha⟩)))
  have hd : d = 0 := by_contra fun hd => hlegal (.inr (.inr (.inr ⟨h2, h8, hd⟩)))
  rw [ha, hd]

@[simp] theorem State.accept_buf (s : State) (b : Byte) : (s.accept b).buf = Memory.write s.buf s.cursor.toNat b := by
  cases hd : isDelim s.params b
  · rw [accept_other hd]
  · rw [accept_delim hd]

theorem read_accept_cursor (s : State) (b : Byte) : Memory.read (s.accept b).buf s.cursor.toNat = some b := by
  rw [State.accept_buf, Memory.read_write_same]

theorem read_accept_other {s : State} {a : Nat} (b : Byte) (h : a ≠ s.cursor.toNat) :
    Memory.read (s.accept b).buf a = Memory.read s.buf a := by
  rw [State.accept_buf, Memory.read_write_other _ _ h]

theorem exec_rxByte_of_run {s : State} (b : Byte) (hs : s.fault = none) (hp : s.phase = .run) :
    exec (.rxByte b) s = .next (s.receive b) := by
  rw [exec, execRxByte, whenLive_of_live hs, hp]

theorem exec_lfsRelease_of_run {s : State} (hs : s.fault = none) (hp : s.phase = .run) :
    exec .lfsRelease s = .next (s.raise .protocolViolation 0x50000000) := by
  rw [exec, execLfsRelease, whenLive_of_live hs, hp]
  rfl

theorem exec_lfsRelease_of_linePending {s : State} (hs : s.fault = none) (hp : s.phase = .linePending) :
    exec .lfsRelease s = .next { s with cursor := 0, phase := .run } := by
  rw [exec, execLfsRelease, whenLive_of_live hs, hp]

theorem exec_lfsRelease_of_ovfPending {s : State} {b : Byte} (hs : s.fault = none) (hp : s.phase = .ovfPending)
    (hb : s.held = some b) : exec .lfsRelease s = .next (s.resume.accept b) := by
  rw [exec, execLfsRelease, whenLive_of_live hs, hp, hb]

/-- Settles O24: with room for the byte RX_BYTE accepts it, and the byte's kind says which of accept's two results. -/
theorem rxByteIsAccepted : Obligations.RxByteIsAccepted := by
  unfold Obligations.RxByteIsAccepted
  intro s b hs hp hroom
  have hexec : exec (.rxByte b) s = .next (s.accept b) := by rw [exec_rxByte_of_run b hs hp, receive_room b hroom]
  refine ⟨s.accept b, hexec, read_accept_cursor s b, fun a ha => read_accept_other b ha, fun hd => ?_, fun hd => ?_⟩
  · rw [accept_delim hd]
    exact ⟨cursor_succ_toNat hroom, rfl⟩
  · rw [accept_other hd]
    exact ⟨cursor_succ_toNat hroom, rfl⟩

/-- Settles O25: one case per phase; after an overflow the held byte is accepted in the resumed state, at cursor 0. -/
theorem lfsReleaseByPhase : Obligations.LfsReleaseByPhase := by
  unfold Obligations.LfsReleaseByPhase
  refine ⟨fun w => decodeOp_eq_ok_iff_eq rfl, otherWordsAreIllegal_formatZ rfl, fun s hs => ⟨fun hp => ?_, fun hp => ?_,
    fun b hp hb => ?_⟩⟩
  · exact exec_lfsRelease_of_run hs hp
  · exact exec_lfsRelease_of_linePending hs hp
  · refine ⟨s.resume.accept b, exec_lfsRelease_of_ovfPending hs hp hb, read_accept_cursor s.resume b,
      fun a ha => read_accept_other (s := s.resume) b ha, fun hd => ?_, fun hd => ?_⟩
    · rw [accept_delim (s := s.resume) hd]
      rfl
    · rw [accept_other (s := s.resume) hd]
      rfl

/-- Settles O23: with no room RX_BYTE overflows, whatever the byte. -/
theorem rxByteOverflows : Obligations.RxByteOverflows := by
  unfold Obligations.RxByteOverflows
  intro s b hs hp hfull
  rw [exec_rxByte_of_run b hs hp, receive_full b hfull]
  rfl

/-- Settles O27: its word and its illegal neighbours from the decoder, and its effect in a live block. -/
theorem lfsClearResetsTheCursor : Obligations.LfsClearResetsTheCursor := by
  unfold Obligations.LfsClearResetsTheCursor
  exact ⟨fun w => decodeOp_eq_ok_iff_eq rfl, otherWordsAreIllegal_formatZ rfl, fun s hs => whenLive_of_live hs⟩

end Sys2Proof.Machine

/-! PROOFS. O32, NOP, and O34, BUF_WR (42_buffer_status.md R170, R172): what each answers in a live block, and its
words. -/

namespace Sys2Proof.Machine

theorem exec_nop_of_live {s : State} (hs : s.fault = none) : exec .nop s = .next s := whenLive_of_live hs

theorem exec_bufWr_past_capacity {s : State} {a : Half} (d : Byte) (hs : s.fault = none) (h : s.cap ≤ a.toNat) :
    exec (.bufWr a d) s = .next (s.raise .addrRange (opWord 0x8 a d)) := by
  have ha : addrOperand s a = .error .addrRange := if_pos h
  rw [exec, execBufWr, whenLive_of_live hs, ha]
  rfl

theorem exec_bufWr_in_range {s : State} {a : Half} (d : Byte) (hs : s.fault = none) (h : a.toNat < s.cap) :
    exec (.bufWr a d) s = .next (s.storeByte a.toNat d) := by
  have ha : addrOperand s a = .ok a.toNat := if_neg (Nat.not_le.2 h)
  rw [exec, execBufWr, whenLive_of_live hs, ha]

theorem written_of_read {s : State} {a : Nat} {b : Byte} (h : Memory.read s.buf a = some b) : s.written a = true := by
  rw [State.written, h, Option.isSome_some]

/-- With RSV = 0, nothing of R76 is left for OP 8. -/
theorem otherWordsAreIllegal_bufWr : OtherWordsAreIllegal 0x8 (fun w => ∃ a d, w = opWord 0x8 a d) :=
  otherWordsAreIllegal fun a d _ => ⟨a, d, rfl⟩

/-- Settles O32: its word and its illegal neighbours from the decoder, and its answer in a live block. -/
theorem nopChangesNothing : Obligations.NopChangesNothing := by
  unfold Obligations.NopChangesNothing
  exact ⟨fun w => decodeOp_eq_ok_iff_eq rfl, otherWordsAreIllegal_formatZ rfl, fun s hs => exec_nop_of_live hs⟩

/-- Settles O34: out of range it faults, and in range the next state is the store of the one byte, whose cells the rules
of a memory write give. -/
theorem bufWrWritesTheCell : Obligations.BufWrWritesTheCell := by
  unfold Obligations.BufWrWritesTheCell
  refine ⟨fun w a d => decodeOp_eq_ok_iff_eq rfl, otherWordsAreIllegal_bufWr, fun s a d hs => ⟨fun h => ?_, fun h => ?_⟩⟩
  · exact exec_bufWr_past_capacity d hs h
  · have hread : Memory.read (s.storeByte a.toNat d).buf a.toNat = some d := Memory.read_write_same s.buf a.toNat d
    exact ⟨s.storeByte a.toNat d, exec_bufWr_in_range d hs h, rfl, hread, written_of_read hread,
      fun k hk => Memory.read_write_other s.buf d hk⟩

end Sys2Proof.Machine

/-! PROOFS. O1, O2, O4, O5 (30_encoding.md R71 to R77): the decoder and the encoder are inverse to each other, and a row
of the opcode map selects only words that decode. -/

namespace Sys2Proof

/-- Only RX_BYTE has a word of the RX port. -/
theorem eq_rxByte_of_encode {i : Instr} {b : Byte} (h : encode i = .rx b) : i = .rxByte b := by
  cases i <;> cases h
  rfl

/-- Settles O1: an op word is read back by the op word decoder, and an RX word is the byte itself. -/
theorem decodeOfEncode : Obligations.DecodeOfEncode := by
  unfold Obligations.DecodeOfEncode
  intro i
  cases h : encode i with
  | op w => exact decodeOp_of_encode h
  | rx b =>
    rw [eq_rxByte_of_encode h]
    rfl

/-- Settles O2: the same two ports, from the word to the operation. -/
theorem encodeOfDecode : Obligations.EncodeOfDecode := by
  unfold Obligations.EncodeOfDecode
  intro w i h
  cases w with
  | op w => exact encode_of_decodeOp h
  | rx b =>
    cases h
    rfl

theorem opFields_and (w m : Word) : opFields (w &&& m) =
    ⟨(opFields w).op &&& (opFields m).op, (opFields w).rsv &&& (opFields m).rsv, (opFields w).a &&& (opFields m).a,
      (opFields w).d &&& (opFields m).d⟩ := by
  simp only [opFields, BitVec.extractLsb'_and]

/-- The fields a row fixes: its OP code is assigned, and where R76 asks for a 0 its mask covers the field and its match
holds 0 there. -/
def OpRow.FixesItsFormat (r : OpRow) : Prop :=
  let p := opFields r.pattern
  let m := opFields r.mask
  p.op.toNat < 0xB ∧ (m.rsv = BitVec.allOnes 4 ∧ p.rsv = 0) ∧
    (p.op ≠ 0x3 → p.op ≠ 0x7 → p.op ≠ 0x8 → m.a = BitVec.allOnes 16 ∧ p.a = 0) ∧
    (p.op ≠ 0x2 → p.op ≠ 0x8 → m.d = BitVec.allOnes 8 ∧ p.d = 0)

theorem opTable_fixesItsFormat : ∀ r ∈ opTable, r.FixesItsFormat := by
  unfold OpRow.FixesItsFormat
  decide

/-- A word that a row selects agrees with the row's match in every field the mask covers, so none of R76's conditions
holds of it. -/
theorem not_isIllegal_of_selects {r : OpRow} {w : Word} (hr : r ∈ opTable) (h : r.selects w = true) :
    ¬ (opFields w).IsIllegal := by
  obtain ⟨hassigned, ⟨hmrsv, hprsv⟩, ha, hd⟩ := opTable_fixesItsFormat r hr
  have hop := op_of_selects hr h
  have hpattern := opFields_and w r.mask
  rw [beq_iff_eq.1 h] at hpattern
  rw [hop] at hassigned ha hd
  rintro (hres | hrsv | ⟨h3, h7, h8, hne⟩ | ⟨h2, h8, hne⟩)
  · omega
  · refine hrsv ?_
    rw [← hprsv, hpattern, hmrsv, BitVec.and_allOnes]
  · obtain ⟨hm, hp⟩ := ha h3 h7 h8
    refine hne ?_
    rw [← hp, hpattern, hm, BitVec.and_allOnes]
  · obtain ⟨hm, hp⟩ := hd h2 h8
    refine hne ?_
    rw [← hp, hpattern, hm, BitVec.and_allOnes]

/-- The one row that the word of an operation selects is the operation's own. -/
theorem selected_mnemonic_of_decodeOp {w : Word} {i : Instr} (h : decodeOp w = .ok i) :
    (opTable.filter fun r => r.selects w).map OpRow.mnemonic = [i.mnemonic] := by
  have hi := rowSelected i
  rw [Laws.RowSelected.Statement, encode_of_decodeOp h] at hi
  obtain ⟨k, _, hname, hsel⟩ := hi
  obtain ⟨r, hr, hsel⟩ := Option.map_eq_some_iff.1 hsel
  have hmem : r ∈ opTable.filter fun r => r.selects w := List.mem_filter.2 ⟨List.mem_of_getElem? hr, hsel⟩
  obtain ⟨q, hq⟩ := List.length_eq_one_iff.1 (length_selected_of_decodeOp h)
  rw [hq] at hmem ⊢
  obtain rfl := List.mem_singleton.1 hmem
  rw [hr] at hname
  exact congrArg (fun m => [m]) (Option.some.inj hname)

/-- Settles O4: a word that decodes selects its operation's row, and a row that selects an illegal word would make it
legal. -/
theorem rowsSelectTheDecodedOperation : Obligations.RowsSelectTheDecodedOperation := by
  unfold Obligations.RowsSelectTheDecodedOperation
  intro w
  split
  case h_1 i h => exact selected_mnemonic_of_decodeOp h
  case h_2 e h =>
    refine List.filter_eq_nil_iff.2 fun r hr hsel => not_isIllegal_of_selects hr hsel ?_
    exact (decodeFields_error_iff (opFields w)).1 ⟨e, h⟩

/-- Settles O5: each word evaluated by the decoder. -/
theorem sampleWordsDecode : Obligations.SampleWordsDecode := by
  unfold Obligations.SampleWordsDecode
  exact ⟨rfl, rfl, rfl, rfl, rfl, rfl, rfl, rfl, rfl, rfl, rfl, rfl, rfl, rfl, rfl, rfl, rfl, rfl⟩

end Sys2Proof

/-! PROOFS. A step seen from the block alone (00_scope.md R8): with some of what waits taken, it is nothing, RESET, the
fault of an illegal word, or one operation. -/

namespace Sys2Proof.Machine

/-- The same block, with other words and turns waiting. -/
def State.withInputs (s : State) (ts : List Turn) (bs : List Byte) (ws : List Word) : State :=
  { s with turns := ts, channel := bs, controller := ws }

@[simp] theorem State.withInputs_params (s : State) (ts : List Turn) (bs : List Byte) (ws : List Word) :
    (s.withInputs ts bs ws).params = s.params := rfl
@[simp] theorem State.withInputs_trace (s : State) (ts : List Turn) (bs : List Byte) (ws : List Word) :
    (s.withInputs ts bs ws).trace = s.trace := rfl

theorem step_on_block {s t : State} (h : step s = .next t) :
    ∃ ts bs ws,
      t = s.withInputs ts bs ws ∨
      ((∃ us, s.turns = .reset :: us) ∧ t = (s.withInputs ts bs ws).applyReset) ∨
      (∃ w, s.fault = none ∧ t = (s.withInputs ts bs ws).raise .illegalOp w) ∨
      ∃ i, exec i (s.withInputs ts bs ws) = .next t := by
  obtain ⟨_, rfl⟩ | ⟨_, ts, _, _, rfl⟩ | ⟨ts, hturn, rfl⟩ | ⟨ts, w, ws, _, _, _, hs, _, rfl⟩ |
    ⟨ts, _, ws, i, _, _, _, he⟩ | ⟨ts, b, bs, _, _, _, he⟩ := step_cases h
  · exact ⟨t.turns, t.channel, t.controller, .inl rfl⟩
  · exact ⟨ts, s.channel, s.controller, .inl rfl⟩
  · exact ⟨ts, s.channel, s.controller, .inr (.inl ⟨⟨ts, hturn⟩, rfl⟩)⟩
  · exact ⟨ts, s.channel, ws, .inr (.inr (.inl ⟨w, hs, rfl⟩))⟩
  · exact ⟨ts, s.channel, ws, .inr (.inr (.inr ⟨i, he⟩))⟩
  · exact ⟨ts, bs, s.controller, .inr (.inr (.inr ⟨.rxByte b, he⟩))⟩

end Sys2Proof.Machine

/-! PROOFS. O44 to O46, the invariant of the block (10_state.md R36): each update that an operation is made of keeps it,
accepting a byte being a store, an echo, and then the line handed over or the cursor moved on. -/

namespace Sys2Proof.Machine

theorem read_storeByte (s : State) (a k : Nat) (b : Byte) :
    Memory.read (s.storeByte a b).buf k = if k = a then some b else Memory.read s.buf k :=
  Memory.read_write s.buf a k b

theorem written_storeByte (s : State) (a k : Nat) (b : Byte) :
    (s.storeByte a b).written k = true ↔ k = a ∨ s.written k = true := by
  rw [State.written, read_storeByte, State.written]
  split <;> simp [*]

/-- A cell written once stays written when another cell or the same one is stored (R53). -/
theorem written_storeByte_of_written {s : State} {k : Nat} (a : Nat) (b : Byte) (h : s.written k = true) :
    (s.storeByte a b).written k = true :=
  (written_storeByte s a k b).2 (.inr h)

theorem BufferInv.cap_pos {s : State} (h : BufferInv s) : 0 < s.cap := of_decide_eq_true h.1

theorem Inv.storeByte {s : State} {a : Nat} (b : Byte) (h : Inv s) (ha : a < s.cap) : Inv (s.storeByte a b) := by
  obtain ⟨⟨hcap, hwf, hbelow⟩, hrange, hovf, hline, hrun⟩ := h
  refine ⟨⟨hcap, Memory.write_wf a b hwf, Memory.write_below b hbelow ha⟩, hrange, hovf, fun hp => ?_,
    fun hp k hk => ?_⟩
  · obtain ⟨hlen, hlast, hcursor⟩ := hline hp
    exact ⟨hlen, written_storeByte_of_written a b hlast, hcursor⟩
  · exact written_storeByte_of_written a b (hrun hp k hk)

theorem Inv.echoByte {s : State} (b : Byte) (h : Inv s) : Inv (s.echoByte b) := by
  unfold State.echoByte
  split <;> exact h

theorem held_eq_none_of_run {s : State} (h : OverflowInv s) (hp : s.phase = .run) : s.held = none := by
  by_contra hheld
  exact Phase.noConfusion (hp.symm.trans (h.1.1 hheld))

/-- Handing over a line keeps the invariant: its length is the cursor plus one, and its last cell has been stored. -/
theorem Inv.handOver {s : State} (h : Inv s) (hp : s.phase = .run) (hroom : s.cursor.toNat < s.cap)
    (hstored : s.written s.cursor.toNat = true) : Inv s.handOver := by
  obtain ⟨hbuf, ⟨hcursor, _⟩, hovf, _, _⟩ := h
  have hlen : s.handOver.lineLen.toNat = s.cursor.toNat + 1 := cursor_succ_toNat hroom
  have hheld : s.held = none := held_eq_none_of_run hovf hp
  refine ⟨hbuf, ⟨hcursor, ?_⟩, ⟨?_, fun hp' => Phase.noConfusion hp'⟩, fun _ => ?_, fun hp' => Phase.noConfusion hp'⟩
  · rw [hlen]
    exact hroom
  · simp [hheld]
  · rw [hlen]
    exact ⟨by omega, hstored, .inl rfl⟩

/-- Moving past a stored byte keeps the invariant: the cells below the new cursor are those below the old one and the
stored one. -/
theorem Inv.advance {s : State} (h : Inv s) (hp : s.phase = .run) (hroom : s.cursor.toNat < s.cap)
    (hstored : s.written s.cursor.toNat = true) : Inv s.advance := by
  obtain ⟨hbuf, ⟨_, hlen⟩, hovf, _, hrun⟩ := h
  have hcursor : s.advance.cursor.toNat = s.cursor.toNat + 1 := cursor_succ_toNat hroom
  have hother : ∀ {p : Phase}, p ≠ .run → s.advance.phase ≠ p := fun hne h => hne (h.symm.trans hp)
  refine ⟨hbuf, ⟨?_, hlen⟩, ⟨hovf.1, fun h => absurd h (hother nofun)⟩, fun h => absurd h (hother nofun),
    fun _ k hk => ?_⟩
  · rw [hcursor]
    exact hroom
  · rw [hcursor] at hk
    obtain hk | rfl := Nat.lt_succ_iff_lt_or_eq.1 hk
    · exact hrun hp k hk
    · exact hstored

theorem Inv.accept {s : State} (b : Byte) (h : Inv s) (hp : s.phase = .run) (hroom : s.cursor.toNat < s.cap) :
    Inv (s.accept b) := by
  have hinv : Inv ((s.storeByte s.cursor.toNat b).echoByte b) := (h.storeByte b hroom).echoByte b
  have hphase : ((s.storeByte s.cursor.toNat b).echoByte b).phase = .run := by simpa using hp
  have hroom' : ((s.storeByte s.cursor.toNat b).echoByte b).cursor.toNat <
      ((s.storeByte s.cursor.toNat b).echoByte b).cap := by simpa [State.cap] using hroom
  have hstored : ((s.storeByte s.cursor.toNat b).echoByte b).written
      ((s.storeByte s.cursor.toNat b).echoByte b).cursor.toNat = true := by
    simp [State.written, Memory.read_write_same]
  unfold State.accept
  split
  · exact hinv.handOver hphase hroom' hstored
  · exact hinv.advance hphase hroom' hstored

theorem Inv.overflow {s : State} (b : Byte) (h : Inv s) : Inv (s.overflow b) := by
  obtain ⟨hbuf, ⟨_, hlen⟩, _, _, _⟩ := h
  exact ⟨hbuf, ⟨Nat.zero_le _, hlen⟩, ⟨by simp, fun _ => rfl⟩, fun hp => Phase.noConfusion hp,
    fun hp => Phase.noConfusion hp⟩

/-- A RUN phase with the cursor at 0 and nothing held asks nothing of the cells. -/
theorem inv_run_at_zero {s : State} (hbuf : BufferInv s) (hlen : s.lineLen.toNat ≤ s.cap) (hp : s.phase = .run)
    (hcursor : s.cursor = 0) (hheld : s.held = none) : Inv s := by
  have hzero : s.cursor.toNat = 0 := by rw [hcursor]; rfl
  exact ⟨hbuf, ⟨by omega, hlen⟩, ⟨by simp [hp, hheld], fun _ => hcursor⟩,
    fun h => Phase.noConfusion (hp.symm.trans h), fun _ a ha => by omega⟩

theorem Inv.resume {s : State} (h : Inv s) : Inv s.resume := by
  obtain ⟨hbuf, ⟨_, hlen⟩, _⟩ := h
  exact inv_run_at_zero hbuf hlen rfl rfl rfl

theorem Inv.releaseLine {s : State} (h : Inv s) (hp : s.phase = .linePending) :
    Inv { s with cursor := 0, phase := .run } := by
  obtain ⟨hbuf, ⟨_, hlen⟩, ⟨hheld, _⟩, _⟩ := h
  refine inv_run_at_zero hbuf hlen rfl rfl (by_contra fun hne => ?_)
  exact Phase.noConfusion (hp.symm.trans (hheld.1 hne))

theorem Inv.clearCursor {s : State} (h : Inv s) : Inv { s with cursor := 0 } := by
  obtain ⟨hbuf, ⟨_, hlen⟩, ⟨hheld, _⟩, hline, _⟩ := h
  refine ⟨hbuf, ⟨Nat.zero_le _, hlen⟩, ⟨hheld, fun _ => rfl⟩, fun hp => ?_, fun _ a ha => absurd ha (Nat.not_lt_zero a)⟩
  obtain ⟨hpos, hlast, _⟩ := hline hp
  exact ⟨hpos, hlast, .inr rfl⟩

/-- Every operation keeps the invariant: the updates outside the synchronizer and the buffer touch no piece of state it
speaks of, and each other one has its lemma above. -/
theorem exec_keeps_inv {i : Instr} {s t : State} (hinv : Inv s) (h : exec i s = .next t) : Inv t := by
  obtain ⟨_, ⟨_, rfl⟩ | ⟨_, _, rfl⟩ | ⟨_, _, rfl⟩ | ⟨_, _, rfl⟩ | ⟨_, hp, rfl⟩ | ⟨b, _, _, _, rfl⟩ | ⟨_, rfl⟩ |
    ⟨a, d, _, ha, rfl⟩ | ⟨b, _, _, _, rfl⟩ | ⟨b, _, hp, hroom, rfl⟩⟩ := exec_cases h
  · exact hinv
  · exact hinv
  · exact hinv
  · exact hinv
  · exact hinv.releaseLine hp
  · exact hinv.resume.accept b rfl hinv.1.cap_pos
  · exact hinv.clearCursor
  · exact hinv.storeByte d ha
  · exact hinv.overflow b
  · exact hinv.accept b hp hroom

theorem inv_resetWith {p : Params} (h : p.wf = true) : Inv (State.resetWith p) :=
  inv_run_at_zero ⟨h, rfl, rfl⟩ (Nat.zero_le _) rfl rfl rfl

/-- Settles O44: the invariant does not speak of what waits, so a step is an operation, a fault entry or RESET to it. -/
theorem invKeptByEveryStep : Obligations.InvKeptByEveryStep := by
  unfold Obligations.InvKeptByEveryStep
  intro s t hinv h
  obtain ⟨ts, bs, ws, rfl | ⟨_, rfl⟩ | ⟨_, _, rfl⟩ | ⟨i, he⟩⟩ := step_on_block h
  · exact hinv
  · exact inv_resetWith hinv.1.1
  · exact hinv
  · have hinputs : Inv (s.withInputs ts bs ws) := hinv
    exact exec_keeps_inv hinputs he

/-- Settles O45: R35's values meet the invariant for every legal capacity. -/
theorem invAtReset : Obligations.InvAtReset := by
  unfold Obligations.InvAtReset
  exact ⟨fun _ => inv_resetWith, inv_resetWith rfl⟩

/-- A line handed over ends in the byte at the cursor. -/
theorem endsInDelimiter_accept {s : State} (b : Byte) (hp : s.phase = .run)
    (hcursor : s.cursor.toNat < s.cap ∨ s.cursor = 0) : EndsInDelimiter (s.accept b) := by
  have hread := read_accept_cursor s b
  obtain ⟨hsucc, ⟨hd, heq⟩ | ⟨_, heq⟩⟩ := accept_cases s b hcursor
  · have hlast : (s.accept b).lineLen.toNat - 1 = s.cursor.toNat := by rw [heq, hsucc, Nat.add_sub_cancel]
    have hparams : (s.accept b).params = s.params := by rw [heq]
    exact fun _ => ⟨b, by rw [hlast, hread], by rw [hparams, hd]⟩
  · have hphase : (s.accept b).phase = .run := by rw [heq, hp]
    exact fun hpend => Phase.noConfusion (hphase.symm.trans hpend)

/-- Settles O46: an accepted byte is the last of the line it ends, BUF_WR stores another cell, and every other operation
keeps the buffer or leaves the phase. -/
theorem pendingLineEndsInItsDelimiter : Obligations.PendingLineEndsInItsDelimiter := by
  unfold Obligations.PendingLineEndsInItsDelimiter
  intro i s t hs h hother
  obtain ⟨_, ⟨_, rfl⟩ | ⟨_, _, rfl⟩ | ⟨_, _, rfl⟩ | ⟨_, _, rfl⟩ | ⟨_, _, rfl⟩ | ⟨b, _, _, _, rfl⟩ | ⟨_, rfl⟩ |
    ⟨a, d, rfl, _, rfl⟩ | ⟨b, _, _, _, rfl⟩ | ⟨b, _, hp, hroom, rfl⟩⟩ := exec_cases h
  · exact hs
  · exact hs
  · exact hs
  · exact hs
  · exact fun hp => Phase.noConfusion hp
  · exact endsInDelimiter_accept b rfl (.inr rfl)
  · exact hs
  · intro hp
    obtain ⟨b, hread, hd⟩ := hs hp
    refine ⟨b, ?_, hd⟩
    rw [← hread]
    exact Memory.read_write_other s.buf d (hother a d rfl).symm
  · exact fun hp => Phase.noConfusion hp
  · exact endsInDelimiter_accept b hp (.inl hroom)

end Sys2Proof.Machine

/-! PROOFS. O14 to O16, O20 and O21, the CRC generator (40_crc.md R100 to R109): the table against its generation rule,
and the table-driven step as eight shifts through the polynomial, by the linearity of a shift. -/

namespace Sys2Proof.Machine

/-- The listing of R103, entry by entry. -/
theorem crcEntry_eq_crcEntryGen : ∀ i : Byte, crcEntry i = crcEntryGen i := by decide

theorem crcTable_length : crcTable.length = 256 := by
  have hquarters : crcTable0.length = 64 ∧ crcTable1.length = 64 ∧ crcTable2.length = 64 ∧ crcTable3.length = 64 :=
    ⟨rfl, rfl, rfl, rfl⟩
  obtain ⟨h0, h1, h2, h3⟩ := hquarters
  rw [crcTable, List.length_append, List.length_append, List.length_append, h0, h1, h2, h3]

/-- Settles O14. -/
theorem tableFollowsItsGenerationRule : Obligations.TableFollowsItsGenerationRule := by
  unfold Obligations.TableFollowsItsGenerationRule
  exact ⟨crcTable_length, crcEntry_eq_crcEntryGen, by decide, by decide, by decide, by decide⟩

/-- A shift through the polynomial is linear: the polynomial is added once for each operand whose top bit is set. -/
theorem shiftPoly_xor (x y : Half) : shiftPoly (x ^^^ y) = shiftPoly x ^^^ shiftPoly y := by
  have hshift : (x ^^^ y) <<< 1 = x <<< 1 ^^^ y <<< 1 := BitVec.shiftLeft_xor_distrib x y 1
  unfold shiftPoly
  rw [BitVec.getLsbD_xor, hshift]
  cases x.getLsbD 15 <;> cases y.getLsbD 15
  · rfl
  · exact BitVec.xor_assoc _ _ _
  · simp
    ac_rfl
  · have hcancel : (x <<< 1 ^^^ 0x1021) ^^^ (y <<< 1 ^^^ 0x1021) = (x <<< 1 ^^^ y <<< 1) ^^^ (0x1021 ^^^ 0x1021) := by
      ac_rfl
    simpa using hcancel.symm

theorem repeat_shiftPoly_xor (n : Nat) (x y : Half) :
    Nat.repeat shiftPoly n (x ^^^ y) = Nat.repeat shiftPoly n x ^^^ Nat.repeat shiftPoly n y := by
  induction n with
  | zero => rfl
  | succ n ih => rw [Nat.repeat, Nat.repeat, Nat.repeat, ih, shiftPoly_xor]

/-- A value with `n` bits to spare has no top bit set in the first `n` shifts. -/
theorem repeat_shiftPoly_small (n : Nat) (x : Half) (h : x.toNat * 2 ^ n < 2 ^ 16) :
    Nat.repeat shiftPoly n x = x <<< n := by
  induction n with
  | zero => simp [Nat.repeat]
  | succ n ih =>
    have hn : x.toNat * 2 ^ n < 2 ^ 15 := by
      rw [pow_succ, ← Nat.mul_assoc] at h
      omega
    have htop : (x <<< n).getLsbD 15 = false := by
      rw [BitVec.getLsbD, BitVec.toNat_shiftLeft, Nat.shiftLeft_eq, Nat.mod_eq_of_lt (by omega)]
      exact Nat.testBit_lt_two_pow hn
    rw [Nat.repeat, ih (by omega), shiftPoly, htop, ← BitVec.shiftLeft_add]
    rfl

/-- The low byte of a halfword. -/
def lowByte (c : Half) : Half := (c.truncate 8).zeroExtend 16

theorem lowByte_shiftLeft (c : Half) : lowByte c <<< 8 = c <<< 8 := by
  ext i hi
  by_cases h : i < 8
  · simp [h]
  · have hlow : i - 8 < 8 := by omega
    have hbit : i - 8 < 16 := by omega
    simp [lowByte, hlow, BitVec.getLsbD_eq_getElem hbit]

/-- The register with a byte added to its high half: the two high bytes together, and the low byte. -/
theorem xor_eq_highByte_xor_lowByte (c : Half) (b : Byte) :
    c ^^^ (b.zeroExtend 16 <<< 8) = (((c >>> 8).truncate 8 ^^^ b).zeroExtend 16 <<< 8) ^^^ lowByte c := by
  ext i hi
  by_cases h : i < 8
  · simp [lowByte, h, BitVec.getLsbD_eq_getElem hi]
  · have hhigh : i - 8 < 8 := by omega
    have hbit : 8 + (i - 8) = i := by omega
    simp [lowByte, h, hhigh, hbit, BitVec.getLsbD_eq_getElem hi]

theorem shiftPoly8_lowByte (c : Half) : shiftPoly8 (lowByte c) = c <<< 8 := by
  have hlt : (lowByte c).toNat < 2 ^ 8 := by
    rw [lowByte, BitVec.toNat_setWidth, BitVec.toNat_setWidth]
    omega
  rw [shiftPoly8, repeat_shiftPoly_small 8 (lowByte c) (by omega), lowByte_shiftLeft]

/-- Settles O15: the high byte and the input byte go through the polynomial together, which is the table entry, and the
low byte is only shifted. -/
theorem crcStepEqualsBitSerial : Obligations.CrcStepEqualsBitSerial := by
  unfold Obligations.CrcStepEqualsBitSerial
  intro c b
  calc crcStep c b
      = (c <<< 8) ^^^ crcEntryGen ((c >>> 8).truncate 8 ^^^ b) := by rw [crcStep, crcEntry_eq_crcEntryGen]
    _ = crcEntryGen ((c >>> 8).truncate 8 ^^^ b) ^^^ shiftPoly8 (lowByte c) := by
      rw [shiftPoly8_lowByte, BitVec.xor_comm]
    _ = shiftPoly8 ((((c >>> 8).truncate 8 ^^^ b).zeroExtend 16 <<< 8) ^^^ lowByte c) :=
      (repeat_shiftPoly_xor 8 _ _).symm
    _ = crcBits c b := by rw [crcBits, xor_eq_highByte_xor_lowByte]

/-- Settles O16: the four strings, folded by the table. -/
theorem crcCheckValues : Obligations.CrcCheckValues := by
  unfold Obligations.CrcCheckValues
  decide

theorem exec_crcRd_of_live {s : State} (hs : s.fault = none) :
    exec .crcRd s = .next (s.giveResult (s.crc.zeroExtend 32)) :=
  whenLive_of_live hs

/-- Settles O20: its word from the decoder, and its effect in a live block. -/
theorem crcRdReturnsTheRegister : Obligations.CrcRdReturnsTheRegister := by
  unfold Obligations.CrcRdReturnsTheRegister
  exact ⟨fun w => decodeOp_eq_ok_iff_eq rfl, fun s hs => exec_crcRd_of_live hs⟩

/-- CRC_FEED of each byte in order folds them all into the register. -/
theorem runInstrs_crcFeeds {s : State} (bs : List Byte) (hs : s.fault = none) :
    runInstrs (bs.map .crcFeed) s = .next (s.setCrc (crcFold s.crc bs)) := by
  induction bs generalizing s with
  | nil => rfl
  | cons b bs ih =>
    rw [List.map_cons, runInstrs, exec_crcFeed_of_live b hs]
    exact ih (s := s.setCrc (crcStep s.crc b)) hs

/-- Settles O21: both sides set the register to the fold of the bytes from the initial value. -/
theorem crcBufEqualsInitThenFeeds : Obligations.CrcBufEqualsInitThenFeeds := by
  unfold Obligations.CrcBufEqualsInitThenFeeds
  intro s n bs hs hn hlen hbs
  rw [exec_crcBuf_of_ok hs (bytesOperand_holdsFirst hn hlen hbs), runInstrs, exec_crcInit_of_live hs]
  exact runInstrs_crcFeeds (s := s.setCrc crcInitial) bs hs

end Sys2Proof.Machine

/-! PROOFS. O22, O26, O28 and O43, the synchronizer (41_lfs.md R131 to R141, 60_exceptions.md R197): the delimiters, the
events of accepting a byte, and that it looks at no CRC register. -/

namespace Sys2Proof.Machine

theorem isDelim_lfOnly {p : Params} (h : p.delimMode = .lfOnly) (b : Byte) : isDelim p b = true ↔ b = 0x0A := by
  rw [isDelim, h]
  exact beq_iff_eq

theorem isDelim_crOrLf {p : Params} (h : p.delimMode = .crOrLf) (b : Byte) :
    isDelim p b = true ↔ b = 0x0A ∨ b = 0x0D := by
  rw [isDelim, h]
  exact Bool.or_eq_true_iff.trans (or_congr beq_iff_eq beq_iff_eq)

/-- Settles O22. -/
theorem delimitersOfEachMode : Obligations.DelimitersOfEachMode := by
  unfold Obligations.DelimitersOfEachMode
  exact fun p b => ⟨fun h => isDelim_lfOnly h b, fun h => isDelim_crOrLf h b⟩

/-- Settles O26: C is at least 1, so the byte that arrives at cursor 0 has room and is accepted in the resumed state, as
the held byte is. -/
theorem heldByteArrivesAtCursorZero : Obligations.HeldByteArrivesAtCursorZero := by
  unfold Obligations.HeldByteArrivesAtCursorZero
  intro s b hwf hs hp hb
  have hroom : s.resume.cursor.toNat < s.resume.cap := of_decide_eq_true hwf
  calc exec .lfsRelease s
      = .next (s.resume.accept b) := exec_lfsRelease_of_ovfPending hs hp hb
    _ = .next (s.resume.receive b) := by rw [receive_room b hroom]
    _ = exec (.rxByte b) s.resume := (exec_rxByte_of_run (s := s.resume) b hs rfl).symm

/-- The Line event of an accepted byte, where it is a delimiter (R136). -/
def lineEvents (s : State) (b : Byte) : List Event :=
  if isDelim s.params b then [.line (s.cursor.toNat + 1)] else []

theorem State.accept_trace (s : State) (b : Byte) :
    (s.accept b).trace = s.trace ++ echoes s.params [b] ++ lineEvents s b := by
  cases hd : isDelim s.params b
  · simp [accept_other hd, lineEvents, hd]
  · simp [accept_delim hd, lineEvents, hd]

theorem echoes_singleton (p : Params) (b : Byte) : echoes p [b] = [] ∨ echoes p [b] = [.echo b] := by
  unfold echoes
  split
  · exact .inr rfl
  · exact .inl rfl

theorem lineEvents_cases (s : State) (b : Byte) :
    lineEvents s b = [] ∨ lineEvents s b = [.line (s.cursor.toNat + 1)] := by
  unfold lineEvents
  split
  · exact .inr rfl
  · exact .inl rfl

/-- The events of accepting a byte: an Echo or none, then a Line or none. -/
theorem accept_trace_cases (s : State) (b : Byte) :
    (s.accept b).trace = s.trace ∨ (s.accept b).trace = s.trace ++ [.echo b] ∨
      (s.accept b).trace = s.trace ++ [.line (s.cursor.toNat + 1)] ∨
      (s.accept b).trace = s.trace ++ [.echo b, .line (s.cursor.toNat + 1)] := by
  rw [State.accept_trace]
  obtain he | he := echoes_singleton s.params b <;> obtain hl | hl := lineEvents_cases s b <;> simp [he, hl]

/-- Settles O28: a received byte overflows or is accepted, and a release accepts at most the held byte, at cursor 0. -/
theorem eventsOfOneStep : Obligations.EventsOfOneStep := by
  unfold Obligations.EventsOfOneStep
  refine ⟨fun s t b h => ⟨s.cursor.toNat + 1, ?_⟩, fun s t h => ?_⟩
  · obtain ⟨_, _, ⟨_, rfl⟩ | ⟨_, rfl⟩⟩ := exec_rxByte_next h
    · exact .inr (.inr (.inr (.inr rfl)))
    · obtain h | h | h | h := accept_trace_cases s b <;> simp [h]
  · obtain ⟨_, ⟨_, rfl⟩ | ⟨_, rfl⟩ | ⟨b, _, hb, rfl⟩⟩ := exec_lfsRelease_next h
    · exact .inl rfl
    · exact .inl rfl
    · obtain h | h | h | h := accept_trace_cases s.resume b
      · exact .inl h
      · exact .inr (.inr ⟨b, hb, .inl h⟩)
      · exact .inr (.inl h)
      · exact .inr (.inr ⟨b, hb, .inr h⟩)

theorem accept_setCrc (s : State) (b : Byte) (c : Half) : (s.setCrc c).accept b = (s.accept b).setCrc c := by
  cases hd : isDelim s.params b
  · rw [accept_other hd, accept_other (s := s.setCrc c) hd]
    rfl
  · rw [accept_delim hd, accept_delim (s := s.setCrc c) hd]
    rfl

theorem receive_setCrc (s : State) (b : Byte) (c : Half) : (s.setCrc c).receive b = (s.receive b).setCrc c := by
  by_cases h : s.cap ≤ s.cursor.toNat
  · rw [receive_full b h, receive_full (s := s.setCrc c) b h]
    rfl
  · rw [receive_room b (Nat.lt_of_not_le h), receive_room (s := s.setCrc c) b (Nat.lt_of_not_le h), accept_setCrc]

theorem exec_lfsClear_of_live {s : State} (hs : s.fault = none) : exec .lfsClear s = .next { s with cursor := 0 } :=
  whenLive_of_live hs

/-- Settles O43: each of the three operations commutes with a write of `crc`. -/
theorem synchronizerIgnoresCrc : Obligations.SynchronizerIgnoresCrc := by
  unfold Obligations.SynchronizerIgnoresCrc
  rintro i s t c (⟨b, rfl⟩ | rfl | rfl) h
  · obtain ⟨hs, hp, _⟩ := exec_rxByte_next h
    rw [exec_rxByte_of_run b hs hp] at h
    cases h
    exact (exec_rxByte_of_run (s := s.setCrc c) b hs hp).trans (congrArg Host.Outcome.next (receive_setCrc s b c))
  · obtain ⟨hs, ⟨hp, rfl⟩ | ⟨hp, rfl⟩ | ⟨b, hp, hb, rfl⟩⟩ := exec_lfsRelease_next h
    · exact exec_lfsRelease_of_run (s := s.setCrc c) hs hp
    · exact exec_lfsRelease_of_linePending (s := s.setCrc c) hs hp
    · exact (exec_lfsRelease_of_ovfPending (s := s.setCrc c) hs hp hb).trans
        (congrArg Host.Outcome.next (accept_setCrc s.resume b c))
  · obtain ⟨hs, rfl⟩ := exec_lfsClear_next h
    exact exec_lfsClear_of_live (s := s.setCrc c) hs

end Sys2Proof.Machine

/-! PROOFS. O29 to O31, framing (41_lfs.md R146, R147): what holds of a state in the middle of a line and of a state
with the line pending, and which operations lead from one to the other. -/

namespace Sys2Proof.Machine

/-- `t` has received the bytes `bs` of a line that began in `s`, none of them its end. -/
structure InLine (s : State) (bs : List Byte) (t : State) : Prop where
  params : t.params = s.params
  held : t.held = s.held
  fault : t.fault = none
  phase : t.phase = .run
  cursor : t.cursor.toNat = bs.length
  bytes : HoldsFirst t bs
  trace : t.trace = s.trace ++ echoes s.params bs

/-- `t` has the line of the bytes `bs` and the delimiter `d` pending, which began in `s`. -/
structure Framed (s : State) (bs : List Byte) (d : Byte) (t : State) : Prop where
  params : t.params = s.params
  held : t.held = s.held
  fault : t.fault = none
  phase : t.phase = .linePending
  cursor : t.cursor.toNat = bs.length
  lineLen : t.lineLen.toNat = bs.length + 1
  bytes : HoldsFirst t (bs ++ [d])
  trace : t.trace = s.trace ++ echoes s.params (bs ++ [d]) ++ [.line (bs.length + 1)]

theorem inLine_nil {s : State} (hs : s.fault = none) (hp : s.phase = .run) (hcursor : s.cursor = 0) :
    InLine s [] s where
  params := rfl
  held := rfl
  fault := hs
  phase := hp
  cursor := by rw [hcursor]; rfl
  bytes := fun _ hk => absurd hk (Nat.not_lt_zero _)
  trace := by simp [echoes]

theorem echoes_append (p : Params) (bs cs : List Byte) : echoes p (bs ++ cs) = echoes p bs ++ echoes p cs := by
  unfold echoes
  split <;> simp

/-- An accepted byte is held after the bytes below the cursor. -/
theorem holdsFirst_accept {t : State} {bs : List Byte} (b : Byte) (hcursor : t.cursor.toNat = bs.length)
    (hbs : HoldsFirst t bs) : HoldsFirst (t.accept b) (bs ++ [b]) := by
  intro k hk
  rw [List.length_append, List.length_singleton] at hk
  obtain hk | rfl := Nat.lt_succ_iff_lt_or_eq.1 hk
  · rw [read_accept_other b (by omega), hbs k hk, List.getElem?_append_left hk]
  · rw [← hcursor, read_accept_cursor, hcursor, List.getElem?_concat_length]

section Bytes

variable {s t : State} {bs : List Byte} {b : Byte}

theorem InLine.cursor_lt_cap (h : InLine s bs t) (hroom : bs.length < s.cap) : t.cursor.toNat < t.cap := by
  rw [h.cursor, State.cap, h.params]
  exact hroom

theorem InLine.exec_rxByte (h : InLine s bs t) (hroom : bs.length < s.cap) :
    exec (.rxByte b) t = .next (t.accept b) := by
  rw [exec_rxByte_of_run b h.fault h.phase, receive_room b (h.cursor_lt_cap hroom)]

/-- A byte that is no delimiter lengthens the line. -/
theorem InLine.accept_other (h : InLine s bs t) (hroom : bs.length < s.cap) (hb : isDelim s.params b = false) :
    InLine s (bs ++ [b]) (t.accept b) := by
  have hbytes := holdsFirst_accept b h.cursor h.bytes
  rw [← h.params] at hb
  rw [Machine.accept_other hb] at hbytes ⊢
  exact { params := h.params, held := h.held, fault := h.fault, phase := h.phase, bytes := hbytes
          cursor := by
            rw [cursor_succ_toNat (h.cursor_lt_cap hroom), h.cursor, List.length_append, List.length_singleton]
          trace := by rw [h.trace, h.params, echoes_append, List.append_assoc] }

/-- A delimiter ends the line. -/
theorem InLine.accept_delim (h : InLine s bs t) (hroom : bs.length < s.cap) (hb : isDelim s.params b = true) :
    Framed s bs b (t.accept b) := by
  have hbytes := holdsFirst_accept b h.cursor h.bytes
  rw [← h.params] at hb
  rw [Machine.accept_delim hb] at hbytes ⊢
  exact { params := h.params, held := h.held, fault := h.fault, phase := rfl, cursor := h.cursor, bytes := hbytes
          lineLen := by rw [cursor_succ_toNat (h.cursor_lt_cap hroom), h.cursor]
          trace := by rw [h.trace, h.params, h.cursor, echoes_append, List.append_assoc s.trace] }

end Bytes

theorem runInstrs_cons_of_next {i : Instr} {is : List Instr} {s t : State} (h : exec i s = .next t) :
    runInstrs (i :: is) s = runInstrs is t := by
  rw [runInstrs, h]

/-- Bytes that are no delimiters and leave a cell for one lengthen the line. -/
theorem InLine.receive_bytes {s t : State} {bs : List Byte} (cs : List Byte) (h : InLine s bs t)
    (hroom : bs.length + cs.length < s.cap) (hcs : ∀ c ∈ cs, isDelim s.params c = false) :
    ∃ u, runInstrs (cs.map .rxByte) t = .next u ∧ InLine s (bs ++ cs) u := by
  induction cs generalizing bs t with
  | nil => exact ⟨t, rfl, by rwa [List.append_nil]⟩
  | cons c cs ih =>
    rw [List.length_cons] at hroom
    have hstep := h.accept_other (by omega) (hcs c List.mem_cons_self)
    obtain ⟨u, hrun, hu⟩ := ih hstep (by simp; omega) fun x hx => hcs x (List.mem_cons_of_mem c hx)
    refine ⟨u, ?_, by simpa using hu⟩
    rw [List.map_cons, runInstrs_cons_of_next (h.exec_rxByte (by omega)), hrun]

/-- The rest of a line and its delimiter frame it. -/
theorem InLine.receive_line {s t : State} {bs : List Byte} {d : Byte} (cs : List Byte) (h : InLine s bs t)
    (hroom : bs.length + cs.length < s.cap) (hcs : ∀ c ∈ cs, isDelim s.params c = false)
    (hd : isDelim s.params d = true) :
    ∃ u, runInstrs ((cs ++ [d]).map .rxByte) t = .next u ∧ Framed s (bs ++ cs) d u := by
  obtain ⟨u, hrun, hu⟩ := h.receive_bytes cs hroom hcs
  have hcap : (bs ++ cs).length < s.cap := by rwa [List.length_append]
  refine ⟨u.accept d, ?_, hu.accept_delim hcap hd⟩
  rw [List.map_append, runInstrs_append _ _ hrun]
  exact runInstrs_cons_of_next (hu.exec_rxByte hcap)

/-- Settles O29: the whole line received from a state with the cursor at 0. -/
theorem framingOfOneLine : Obligations.FramingOfOneLine := by
  unfold Obligations.FramingOfOneLine
  intro s bs d hs hp hcursor hlen hbs hd
  obtain ⟨t, hrun, ht⟩ := (inLine_nil hs hp hcursor).receive_line bs (by simpa using hlen) hbs hd
  exact ⟨t, hrun, ht.phase, ht.cursor, ht.lineLen, ht.bytes, ht.trace⟩

/-- A bystander touches only `crc`, the results and the fault record. -/
theorem bystander_frame {i : Instr} {s t : State} (hi : isBystander i = true) (h : exec i s = .next t) :
    t = { s with crc := t.crc, results := t.results, fault := t.fault } := by
  obtain ⟨_, ⟨_, rfl⟩ | ⟨_, _, rfl⟩ | ⟨_, _, rfl⟩ | ⟨_, _, rfl⟩ | ⟨rfl, _⟩ | ⟨_, rfl, _⟩ | ⟨rfl, _⟩ |
    ⟨_, _, rfl, _⟩ | ⟨_, rfl, _⟩ | ⟨_, rfl, _⟩⟩ := exec_cases h
  · rfl
  · rfl
  · rfl
  · rfl
  all_goals cases hi

theorem InLine.bystander {i : Instr} {s t u : State} {bs : List Byte} (h : InLine s bs t) (hi : isBystander i = true)
    (he : exec i t = .next u) (hu : u.fault = none) : InLine s bs u := by
  rw [bystander_frame hi he, hu]
  exact ⟨h.params, h.held, rfl, h.phase, h.cursor, h.bytes, h.trace⟩

theorem Framed.bystander {i : Instr} {s t u : State} {bs : List Byte} {d : Byte} (h : Framed s bs d t)
    (hi : isBystander i = true) (he : exec i t = .next u) (hu : u.fault = none) : Framed s bs d u := by
  rw [bystander_frame hi he, hu]
  exact ⟨h.params, h.held, rfl, h.phase, h.cursor, h.lineLen, h.bytes, h.trace⟩

/-- A run that answers a next state, taken apart at its first operation; if it ends without a fault, that operation
raised none. -/
theorem runInstrs_cons_next {i : Instr} {is : List Instr} {s u : State} (h : runInstrs (i :: is) s = .next u)
    (hu : u.fault = none) : ∃ t, exec i s = .next t ∧ runInstrs is t = .next u ∧ t.fault = none := by
  unfold runInstrs at h
  split at h
  case h_1 t he =>
    refine ⟨t, he, h, ?_⟩
    cases is with
    | nil =>
      cases h
      exact hu
    | cons j js =>
      unfold runInstrs at h
      split at h
      · exact (exec_cases ‹exec j t = _›).1
      · cases h
      · cases h
  case h_2 => cases h
  case h_3 => cases h

/-- An operation that may stand between the bytes of a line: a received byte or a bystander. -/
theorem eq_rxByte_or_bystander {i : Instr} (h : i.port = .rx ∨ isBystander i = true) :
    (∃ b, i = .rxByte b) ∨ (isBystander i = true ∧ rxByteOf i = none) := by
  cases i <;> simp_all [Instr.port, isBystander, rxByteOf]

theorem rxBytes_cons_rxByte (b : Byte) (is : List Instr) : rxBytes (.rxByte b :: is) = b :: rxBytes is := rfl

theorem rxBytes_cons_bystander {i : Instr} (is : List Instr) (h : rxByteOf i = none) : rxBytes (i :: is) = rxBytes is :=
  List.filterMap_cons_none h

/-- With the line pending, a run that receives no byte is one of bystanders. -/
theorem Framed.run {s t u : State} {bs : List Byte} {d : Byte} (is : List Instr) (h : Framed s bs d t)
    (his : ∀ i ∈ is, i.port = .rx ∨ isBystander i = true) (hrx : rxBytes is = []) (hrun : runInstrs is t = .next u)
    (hu : u.fault = none) : Framed s bs d u := by
  induction is generalizing t with
  | nil =>
    cases hrun
    exact h
  | cons i is ih =>
    obtain ⟨t', he, hrun, ht'⟩ := runInstrs_cons_next hrun hu
    obtain ⟨b, rfl⟩ | ⟨hi, hnone⟩ := eq_rxByte_or_bystander (his i List.mem_cons_self)
    · cases hrx
    · rw [rxBytes_cons_bystander is hnone] at hrx
      exact ih (h.bystander hi he ht') (fun j hj => his j (List.mem_cons_of_mem i hj)) hrx hrun

/-- In the middle of a line, a run that receives the rest of it and its delimiter frames it. -/
theorem InLine.run {s t u : State} {bs cs : List Byte} {d : Byte} (is : List Instr) (h : InLine s bs t)
    (hroom : bs.length + cs.length < s.cap) (hcs : ∀ c ∈ cs, isDelim s.params c = false)
    (hd : isDelim s.params d = true) (his : ∀ i ∈ is, i.port = .rx ∨ isBystander i = true)
    (hrx : rxBytes is = cs ++ [d]) (hrun : runInstrs is t = .next u) (hu : u.fault = none) :
    Framed s (bs ++ cs) d u := by
  induction is generalizing bs cs t with
  | nil => simp [rxBytes] at hrx
  | cons i is ih =>
    obtain ⟨t', he, hrun, ht'⟩ := runInstrs_cons_next hrun hu
    have his' : ∀ j ∈ is, j.port = .rx ∨ isBystander j = true := fun j hj => his j (List.mem_cons_of_mem i hj)
    obtain ⟨b, rfl⟩ | ⟨hi, hnone⟩ := eq_rxByte_or_bystander (his i List.mem_cons_self)
    · rw [h.exec_rxByte (by omega)] at he
      cases he
      rw [rxBytes_cons_rxByte] at hrx
      cases cs with
      | nil =>
        obtain ⟨rfl, hrest⟩ := List.cons_eq_cons.1 hrx
        rw [List.append_nil]
        exact (h.accept_delim (by omega) hd).run is his' hrest hrun hu
      | cons c cs =>
        obtain ⟨rfl, hrest⟩ := List.cons_eq_cons.1 hrx
        rw [List.length_cons] at hroom
        have hstep := h.accept_other (by omega) (hcs b List.mem_cons_self)
        have hline := ih hstep (by simp; omega) (fun x hx => hcs x (List.mem_cons_of_mem b hx)) his' hrest hrun
        rwa [List.append_assoc] at hline
    · rw [rxBytes_cons_bystander is hnone] at hrx
      exact ih (h.bystander hi he ht') hroom hcs his' hrx hrun

/-- Settles O30: the run starts a line, goes on through it, and ends with it pending. -/
theorem framingUnderInterleaving : Obligations.FramingUnderInterleaving := by
  unfold Obligations.FramingUnderInterleaving
  intro s t is bs d hs hp hcursor hlen hbs hd his hrx hrun ht
  have hline := (inLine_nil hs hp hcursor).run is (by simpa using hlen) hbs hd his hrx hrun ht
  exact ⟨hline.phase, hline.cursor, hline.lineLen, hline.bytes, hline.trace⟩

theorem filter_notEcho_echoes (p : Params) (bs : List Byte) : (echoes p bs).filter notEcho = [] := by
  unfold echoes
  split <;> simp [notEcho, List.filter_eq_nil_iff]

theorem Framed.trace_without_echoes {s t : State} {bs : List Byte} {d : Byte} (h : Framed s bs d t) :
    t.trace.filter notEcho = s.trace.filter notEcho ++ [.line (bs.length + 1)] := by
  rw [h.trace, List.filter_append, List.filter_append, filter_notEcho_echoes, List.append_nil]
  rfl

/-- The state in which the tail of an overflow begins its line: the overflow released, its byte not yet stored. -/
def afterOverflow (s : State) (b : Byte) : State := (s.overflow b).resume

/-- A byte that overflows and its release begin a line with that byte. -/
theorem inLine_afterOverflow {s : State} {b : Byte} (hs : s.fault = none) (hp : s.phase = .run)
    (hfull : s.cap ≤ s.cursor.toNat) (hpos : 0 < s.cap) (hb : isDelim s.params b = false) :
    ∃ t, runInstrs [.rxByte b, .lfsRelease] s = .next t ∧ InLine (afterOverflow s b) [b] t := by
  have hrx : exec (.rxByte b) s = .next (s.overflow b) := by rw [exec_rxByte_of_run b hs hp, receive_full b hfull]
  have hrel : exec .lfsRelease (s.overflow b) = .next ((afterOverflow s b).accept b) :=
    exec_lfsRelease_of_ovfPending hs rfl rfl
  have hline : InLine (afterOverflow s b) [] (afterOverflow s b) := inLine_nil hs rfl rfl
  refine ⟨(afterOverflow s b).accept b, ?_, hline.accept_other hpos hb⟩
  rw [runInstrs_cons_of_next hrx, runInstrs_cons_of_next hrel]
  rfl

theorem afterOverflow_trace_without_echoes (s : State) (b : Byte) :
    (afterOverflow s b).trace.filter notEcho = s.trace.filter notEcho ++ [.overflow] :=
  List.filter_append s.trace [.overflow]

/-- The release of a framed line leaves the state in which the next line begins. -/
theorem Framed.release {s t : State} {bs : List Byte} {d : Byte} (h : Framed s bs d t) :
    ∃ u, exec .lfsRelease t = .next u ∧ InLine u [] u ∧ u.params = s.params ∧ u.held = s.held ∧ u.trace = t.trace :=
  ⟨_, exec_lfsRelease_of_linePending h.fault h.phase, inLine_nil h.fault rfl rfl, h.params, h.held, rfl⟩

/-- Settles O31: the overflow, the tail framed with the overflowing byte in front, and after its release the next line
framed from cursor 0. -/
theorem overflowRecovery : Obligations.OverflowRecovery := by
  unfold Obligations.OverflowRecovery
  intro s b d e tail line hs hp hfull htail hline hbytes hd he
  obtain ⟨t₁, hrun₁, h₁⟩ := inLine_afterOverflow hs hp hfull (by omega) (hbytes b (by simp))
  have hlen : ([b] ++ tail).length + 1 = tail.length + 2 := by simp
  have hroom : [b].length + tail.length < s.cap := by
    rw [List.length_singleton]
    omega
  obtain ⟨t₂, hrun₂, h₂⟩ := h₁.receive_line tail hroom (fun x hx => hbytes x (by simp [hx])) hd
  obtain ⟨u, hrel, hu, hbase, hheld, htrace⟩ := h₂.release
  have hparams : u.params = s.params := hbase
  obtain ⟨t, hrun, ht⟩ := hu.receive_line (d := e) line (by simpa [State.cap, hparams] using hline)
    (fun x hx => by simpa [hparams] using hbytes x (by simp [hx])) (by rwa [hparams])
  refine ⟨t, ?_, ht.phase, ht.held.trans hheld, ht.lineLen, ht.bytes, ?_⟩
  · rw [List.append_assoc, List.append_assoc, runInstrs_append _ _ hrun₁, runInstrs_append _ _ hrun₂,
      List.singleton_append, runInstrs_cons_of_next hrel, hrun]
  · calc t.trace.filter notEcho
        = t₂.trace.filter notEcho ++ [.line (line.length + 1)] := by
          rw [ht.trace_without_echoes, htrace, List.nil_append]
      _ = (afterOverflow s b).trace.filter notEcho ++ [.line (tail.length + 2)] ++ [.line (line.length + 1)] := by
        rw [h₂.trace_without_echoes, hlen]
      _ = s.trace.filter notEcho ++ [.overflow, .line (tail.length + 2), .line (line.length + 1)] := by
        simp [afterOverflow_trace_without_echoes]

end Sys2Proof.Machine

/-! PROOFS. O33, O35, O36 and O38, the reads (42_buffer_status.md R171, R173, R174; 20_memory.md R58): what each returns
in a live block, and the fields of the STATUS word. -/

namespace Sys2Proof.Machine

theorem byteOperand_past_capacity {s : State} {a : Half} (h : s.cap ≤ a.toNat) :
    byteOperand s a = .error .addrRange := by
  obtain ⟨_, he⟩ | ⟨hlt, _⟩ | ⟨_, hlt, _⟩ := byteOperand_cases s a
  · exact he
  · omega
  · omega

theorem byteOperand_unwritten {s : State} {a : Half} (hlt : a.toNat < s.cap) (h : s.written a.toNat = false) :
    byteOperand s a = .error .uninitRead := by
  rw [written_eq_false_iff] at h
  obtain ⟨hle, _⟩ | ⟨_, _, he⟩ | ⟨b, _, hread, _⟩ := byteOperand_cases s a
  · omega
  · exact he
  · rw [h] at hread
    cases hread

theorem byteOperand_written {s : State} {a : Half} {b : Byte} (hlt : a.toNat < s.cap)
    (h : Memory.read s.buf a.toNat = some b) : byteOperand s a = .ok b := by
  obtain ⟨hle, _⟩ | ⟨_, hnone, _⟩ | ⟨c, _, hread, he⟩ := byteOperand_cases s a
  · omega
  · rw [h] at hnone
    cases hnone
  · rw [h] at hread
    cases hread
    exact he

theorem exec_bufRd_of_error {s : State} {a : Half} {r : FaultReason} (hs : s.fault = none)
    (h : byteOperand s a = .error r) : exec (.bufRd a) s = .next (s.raise r (opWord 0x7 a 0)) := by
  rw [exec, execBufRd, whenLive_of_live hs, h]
  rfl

theorem exec_bufRd_of_ok {s : State} {a : Half} {b : Byte} (hs : s.fault = none) (h : byteOperand s a = .ok b) :
    exec (.bufRd a) s = .next (s.giveResult (b.zeroExtend 32)) := by
  rw [exec, execBufRd, whenLive_of_live hs, h]

theorem exec_statusRd_of_live {s : State} (hs : s.fault = none) :
    exec .statusRd s = .next (s.giveResult (statusWord s)) :=
  whenLive_of_live hs

theorem exec_lenRd_of_live {s : State} (hs : s.fault = none) :
    exec .lenRd s = .next (s.giveResult (s.lineLen.zeroExtend 32)) :=
  whenLive_of_live hs

/-- Settles O33: its words from the decoder, and one case per answer of its address operand. -/
theorem bufRdReturnsTheByte : Obligations.BufRdReturnsTheByte := by
  unfold Obligations.BufRdReturnsTheByte
  refine ⟨fun w a => decodeOp_eq_ok_iff_eq rfl, fun s a hs => ⟨fun h => ?_, fun hlt h => ?_, fun b hlt h => ?_⟩⟩
  · exact exec_bufRd_of_error hs (byteOperand_past_capacity h)
  · exact exec_bufRd_of_error hs (byteOperand_unwritten hlt h)
  · exact exec_bufRd_of_ok hs (byteOperand_written hlt h)

/-- Settles O36: its word from the decoder, and its answer in a live block. -/
theorem lenRdReturnsTheLength : Obligations.LenRdReturnsTheLength := by
  unfold Obligations.LenRdReturnsTheLength
  exact ⟨fun w => decodeOp_eq_ok_iff_eq rfl, fun s hs => exec_lenRd_of_live hs⟩

/-- A field of the STATUS word holds the value that its number weighs there. -/
theorem statusWord_extractLsb'_eq {s : State} {k n : Nat} {x : BitVec n}
    (h : (statusWord s).toNat / 2 ^ k % 2 ^ n = x.toNat) : (statusWord s).extractLsb' k n = x := by
  apply BitVec.eq_of_toNat_eq
  rw [BitVec.extractLsb'_toNat, Nat.shiftRight_eq_div_pow, h]

/-- The fields of the STATUS word, from bit 31 down (R33). -/
theorem statusWord_fields (s : State) :
    (statusWord s).extractLsb' 24 8 = 0 ∧ (statusWord s).extractLsb' 8 16 = s.cursor ∧
    (statusWord s).extractLsb' 4 4 = 0 ∧ (statusWord s).extractLsb' 3 1 = dmodeBit s.params.delimMode ∧
    (statusWord s).extractLsb' 2 1 = echoBit s.params.echo ∧ (statusWord s).extractLsb' 0 2 = phaseCode s.phase := by
  have h := statusWord_toNat s
  have hzero8 : (0 : BitVec 8).toNat = 0 := rfl
  have hzero4 : (0 : BitVec 4).toNat = 0 := rfl
  have hcursor := s.cursor.isLt
  have hdmode := (dmodeBit s.params.delimMode).isLt
  have hecho := (echoBit s.params.echo).isLt
  have hphase := (phaseCode s.phase).isLt
  refine ⟨?_, ?_, ?_, ?_, ?_, ?_⟩ <;> exact statusWord_extractLsb'_eq (by omega)

theorem getLsbD_of_extractLsb'_one {w : Word} {k : Nat} {x : BitVec 1} (h : w.extractLsb' k 1 = x) :
    w.getLsbD k = x.getLsbD 0 := by
  rw [← h, BitVec.getLsbD_extractLsb']
  simp

theorem echoBit_getLsbD (echo : Bool) : (echoBit echo).getLsbD 0 = echo := by
  cases echo <;> rfl

theorem dmodeBit_getLsbD (m : DelimMode) : (dmodeBit m).getLsbD 0 = decide (m = .crOrLf) := by
  cases m <;> rfl

/-- Settles O35: its word from the decoder, no step once faulted, and the STATUS word field by field. -/
theorem statusRdReturnsTheStatusWord : Obligations.StatusRdReturnsTheStatusWord := by
  unfold Obligations.StatusRdReturnsTheStatusWord
  refine ⟨fun w => decodeOp_eq_ok_iff_eq rfl, fun s hs => whenLive_of_faulted hs, fun s hs => ?_⟩
  obtain ⟨hhigh, hcursor, hmid, hdmode, hecho, hphase⟩ := statusWord_fields s
  refine ⟨statusWord s, exec_statusRd_of_live hs, ?_, ?_, ?_, hmid, hcursor, hhigh⟩
  · rw [hphase]
    cases s.phase <;> rfl
  · rw [getLsbD_of_extractLsb'_one hecho, echoBit_getLsbD]
  · rw [getLsbD_of_extractLsb'_one hdmode, dmodeBit_getLsbD]

/-- Settles O38: a result changes nothing that a read looks at, so the second read answers as the first. -/
theorem readsHaveNoSideEffect : Obligations.ReadsHaveNoSideEffect := by
  unfold Obligations.ReadsHaveNoSideEffect
  rintro s t i (rfl | rfl | rfl | ⟨a, rfl⟩) h
  · obtain ⟨hs, rfl⟩ := exec_crcRd_next h
    exact .inl ⟨s.crc.zeroExtend 32, rfl, exec_crcRd_of_live (s := s.giveResult _) hs⟩
  · obtain ⟨hs, rfl⟩ := exec_statusRd_next h
    exact .inl ⟨statusWord s, rfl, exec_statusRd_of_live (s := s.giveResult _) hs⟩
  · obtain ⟨hs, rfl⟩ := exec_lenRd_next h
    exact .inl ⟨s.lineLen.zeroExtend 32, rfl, exec_lenRd_of_live (s := s.giveResult _) hs⟩
  · obtain ⟨hs, ⟨_, rfl⟩ | ⟨_, _, rfl⟩ | ⟨b, hlt, hread, rfl⟩⟩ := exec_bufRd_next h
    · exact .inr ⟨_, rfl⟩
    · exact .inr ⟨_, rfl⟩
    · exact .inl ⟨b.zeroExtend 32, rfl,
        exec_bufRd_of_ok (s := s.giveResult _) hs (byteOperand_written (s := s.giveResult _) hlt hread)⟩

end Sys2Proof.Machine

/-! PROOFS. O37 and O39 to O42, the frames (10_state.md R21 to R27): which operation may write which piece of state. -/

namespace Sys2Proof.Machine

/-- Settles O37: `crc` is written or a fault record is. -/
theorem crcOperationsFrame : Obligations.CrcOperationsFrame := by
  unfold Obligations.CrcOperationsFrame
  rintro s t d n (h | h | h)
  · obtain ⟨_, rfl⟩ := exec_crcInit_next h
    exact ⟨rfl, fun _ => rfl⟩
  · obtain ⟨_, rfl⟩ := exec_crcFeed_next h
    exact ⟨rfl, fun _ => rfl⟩
  · obtain ⟨_, ⟨_, rfl⟩ | ⟨_, _, rfl⟩ | ⟨_, _, _, rfl⟩⟩ := exec_crcBuf_next h
    · exact ⟨rfl, fun _ => rfl⟩
    · exact ⟨rfl, fun _ => rfl⟩
    · exact ⟨rfl, fun _ => rfl⟩

/-- Settles O39. -/
theorem clearAndLineReleaseFrame : Obligations.ClearAndLineReleaseFrame := by
  unfold Obligations.ClearAndLineReleaseFrame
  rintro s t (h | ⟨hp, h⟩)
  · obtain ⟨_, rfl⟩ := exec_lfsClear_next h
    exact ⟨rfl, fun _ => rfl⟩
  · obtain ⟨hs, _⟩ := exec_lfsRelease_next h
    rw [exec_lfsRelease_of_linePending hs hp] at h
    cases h
    exact ⟨rfl, fun _ => rfl⟩

/-- Settles O40: an operation that stores a byte stores one, and the premise names its cell. -/
theorem bufferFrameOfEveryOperation : Obligations.BufferFrameOfEveryOperation := by
  unfold Obligations.BufferFrameOfEveryOperation
  intro i s t k h hwr hrx hrel
  obtain ⟨_, ⟨_, rfl⟩ | ⟨_, _, rfl⟩ | ⟨_, _, rfl⟩ | ⟨_, _, rfl⟩ | ⟨_, _, rfl⟩ | ⟨b, hi, hp, _, rfl⟩ | ⟨_, rfl⟩ |
    ⟨a, d, hi, ha, rfl⟩ | ⟨_, _, _, _, rfl⟩ | ⟨b, hi, _, hroom, rfl⟩⟩ := exec_cases h
  · rfl
  · rfl
  · rfl
  · rfl
  · rfl
  · exact read_accept_other (s := s.resume) b (hrel hi hp)
  · rfl
  · exact Memory.read_write_other s.buf d (hwr a d hi ha)
  · rfl
  · exact read_accept_other b (hrx b hi hroom)

@[simp] theorem State.accept_crc (s : State) (b : Byte) : (s.accept b).crc = s.crc := by
  cases hd : isDelim s.params b
  · rw [accept_other hd]
  · rw [accept_delim hd]

/-- Settles O41: of the cases of an operation, only that of the three writes `crc`. -/
theorem onlyCrcOperationsWriteCrc : Obligations.OnlyCrcOperationsWriteCrc := by
  unfold Obligations.OnlyCrcOperationsWriteCrc
  intro i s t h hne
  obtain ⟨_, ⟨_, rfl⟩ | ⟨_, hi, rfl⟩ | ⟨_, _, rfl⟩ | ⟨_, _, rfl⟩ | ⟨_, _, rfl⟩ | ⟨b, _, _, _, rfl⟩ | ⟨_, rfl⟩ |
    ⟨_, _, _, _, rfl⟩ | ⟨_, _, _, _, rfl⟩ | ⟨b, _, _, _, rfl⟩⟩ := exec_cases h
  case inr.inl => exact hi
  all_goals exact absurd (by simp) hne

/-- `line_len` follows the Line events from `s` to `t` (R27). -/
def LineLengthFollows (s t : State) : Prop :=
  (t.lineLen = s.lineLen ∧ ∃ es, t.trace = s.trace ++ es ∧ ∀ n, Event.line n ∉ es) ∨
    ∃ es, t.trace = s.trace ++ es ++ [.line t.lineLen.toNat]

theorem lineLengthFollows_of_eq {s t : State} (hlen : t.lineLen = s.lineLen) (htrace : t.trace = s.trace) :
    LineLengthFollows s t :=
  .inl ⟨hlen, [], by simpa using htrace, by simp⟩

theorem line_notMem_echoes (p : Params) (bs : List Byte) (n : Nat) : Event.line n ∉ echoes p bs := by
  unfold echoes
  split <;> simp

theorem lineLengthFollows_accept {s : State} (b : Byte) (hcursor : s.cursor.toNat < s.cap ∨ s.cursor = 0) :
    LineLengthFollows s (s.accept b) := by
  obtain ⟨hsucc, ⟨_, heq⟩ | ⟨_, heq⟩⟩ := accept_cases s b hcursor
  · rw [heq]
    exact .inr ⟨echoes s.params [b], by rw [hsucc]⟩
  · rw [heq]
    exact .inl ⟨rfl, echoes s.params [b], rfl, fun n => line_notMem_echoes s.params [b] n⟩

/-- Settles O42: only accepting a byte emits a Line event, and an overflow emits another one. -/
theorem lineLengthFollowsTheLineEvent : Obligations.LineLengthFollowsTheLineEvent := by
  unfold Obligations.LineLengthFollowsTheLineEvent
  intro i s t h
  obtain ⟨_, ⟨_, rfl⟩ | ⟨_, _, rfl⟩ | ⟨_, _, rfl⟩ | ⟨_, _, rfl⟩ | ⟨_, _, rfl⟩ | ⟨b, _, _, _, rfl⟩ | ⟨_, rfl⟩ |
    ⟨_, _, _, _, rfl⟩ | ⟨b, _, _, _, rfl⟩ | ⟨b, _, _, hroom, rfl⟩⟩ := exec_cases h
  · exact lineLengthFollows_of_eq rfl rfl
  · exact lineLengthFollows_of_eq rfl rfl
  · exact lineLengthFollows_of_eq rfl rfl
  · exact lineLengthFollows_of_eq rfl rfl
  · exact lineLengthFollows_of_eq rfl rfl
  · exact lineLengthFollows_accept (s := s.resume) b (.inr rfl)
  · exact lineLengthFollows_of_eq rfl rfl
  · exact lineLengthFollows_of_eq rfl rfl
  · exact .inl ⟨rfl, [.overflow], rfl, by simp⟩
  · exact lineLengthFollows_accept b (.inl hroom)

end Sys2Proof.Machine

/-! PROOFS. O6 to O13 and O48, the step of the block with its inputs (00_scope.md R8, 60_exceptions.md R191, R206,
70_reset_and_hazards.md R220): one equation for each turn and for what waits there. -/

namespace Sys2Proof.Machine

theorem step_idle {s : State} (h : s.turns = []) : step s = .next s := by
  rw [step, takeTurn, h]

theorem step_reset {s : State} {ts : List Turn} (h : s.turns = .reset :: ts) :
    step s = .next (State.applyReset { s with turns := ts }) := by
  rw [step, takeTurn, h]

theorem step_channel {s : State} {ts : List Turn} (h : s.turns = .channel :: ts) :
    step s = channelTurn { s with turns := ts } := by
  rw [step, takeTurn, h]

theorem step_controller {s : State} {ts : List Turn} (h : s.turns = .controller :: ts) :
    step s = controllerTurn { s with turns := ts } := by
  rw [step, takeTurn, h]

theorem channelTurn_not_ready {s : State} (h : s.rxReady = false) : channelTurn s = .next s := by
  simp [channelTurn, h]

theorem channelTurn_empty {s : State} (h : s.channel = []) : channelTurn s = .next s := by
  simp [channelTurn, h]

theorem channelTurn_byte {s : State} {b : Byte} {bs : List Byte} (hready : s.rxReady = true) (h : s.channel = b :: bs) :
    channelTurn s = exec (.rxByte b) { s with channel := bs } := by
  rw [channelTurn, if_pos hready, h]
  rfl

theorem controllerTurn_faulted {s : State} {f : FaultRecord} (h : s.fault = some f) : controllerTurn s = .next s := by
  rw [controllerTurn, h]

theorem controllerTurn_empty {s : State} (hs : s.fault = none) (h : s.controller = []) :
    controllerTurn s = .next s := by
  rw [controllerTurn, hs, h]

theorem controllerTurn_word {s : State} {w : Word} {ws : List Word} (hs : s.fault = none) (h : s.controller = w :: ws) :
    controllerTurn s = runWord (.op w) { s with controller := ws } := by
  rw [controllerTurn, hs, h]

theorem runWord_legal {s : State} {w : Word} {i : Instr} (h : decodeOp w = .ok i) : runWord (.op w) s = exec i s := by
  have hd : decode (.op w) = .ok i := h
  rw [runWord, hd]

/-- Settles O6. -/
theorem controllerStepRunsTheOperation : Obligations.ControllerStepRunsTheOperation := by
  unfold Obligations.ControllerStepRunsTheOperation
  intro s ts w ws hturn hw hs
  have hstep : step s = runWord (.op w) { s with turns := ts, controller := ws } :=
    (step_controller hturn).trans (controllerTurn_word (s := { s with turns := ts }) hs hw)
  refine ⟨fun i h => ?_, fun e h => ?_⟩
  · rw [hstep, runWord_legal h]
  · rw [hstep]
    exact runWord_illegal (s := { s with turns := ts, controller := ws }) hs h

/-- Settles O7. -/
theorem channelStepReceivesTheByte : Obligations.ChannelStepReceivesTheByte := by
  unfold Obligations.ChannelStepReceivesTheByte
  intro s ts b bs hturn hb hready
  rw [step_channel hturn, channelTurn_byte (s := { s with turns := ts }) hready hb]

/-- Settles O8. -/
theorem heldByteWaitsInTheChannel : Obligations.HeldByteWaitsInTheChannel := by
  unfold Obligations.HeldByteWaitsInTheChannel
  intro s ts hturn
  refine ⟨(rxReady_iff s).trans and_comm, fun h => ?_, fun h => ?_⟩
  · rw [step_channel hturn, channelTurn_not_ready (s := { s with turns := ts }) h]
  · rw [step_channel hturn, channelTurn_empty (s := { s with turns := ts }) h]

/-- Every operation's meaning begins with the guard of a live block. -/
theorem exec_of_faulted {s : State} (i : Instr) (h : s.fault ≠ none) : exec i s = .fault .blockFaulted := by
  cases i <;> exact whenLive_of_faulted h

theorem rxReady_eq_false_of_faulted {s : State} (h : s.fault ≠ none) : s.rxReady = false :=
  Bool.eq_false_iff.2 fun hready => h ((rxReady_iff s).1 hready).2

theorem linePendingOut_eq_false_of_faulted {s : State} (h : s.fault ≠ none) : s.linePendingOut = false :=
  Bool.eq_false_iff.2 fun hout => h ((linePendingOut_iff s).1 hout).2

theorem ovfPendingOut_eq_false_of_faulted {s : State} (h : s.fault ≠ none) : s.ovfPendingOut = false :=
  Bool.eq_false_iff.2 fun hout => h ((ovfPendingOut_iff s).1 hout).2

/-- Settles O9: each output asks for an empty fault record, each meaning for a live block, and both turns pass. -/
theorem faultedBlockHasNoStep : Obligations.FaultedBlockHasNoStep := by
  unfold Obligations.FaultedBlockHasNoStep
  intro s f hf
  have hne : s.fault ≠ none := by simp [hf]
  refine ⟨rxReady_eq_false_of_faulted hne, linePendingOut_eq_false_of_faulted hne,
    ovfPendingOut_eq_false_of_faulted hne, fun i => exec_of_faulted i hne, ?_⟩
  rintro ts (hturn | hturn)
  · rw [step_channel hturn, channelTurn_not_ready (s := { s with turns := ts }) (rxReady_eq_false_of_faulted hne)]
  · rw [step_controller hturn, controllerTurn_faulted (s := { s with turns := ts }) hf]

/-- Settles O10: the values of R35. -/
theorem resetSetsEveryPieceOfState : Obligations.ResetSetsEveryPieceOfState := by
  unfold Obligations.ResetSetsEveryPieceOfState
  exact fun s ts hturn =>
    ⟨_, step_reset hturn, rfl, fun _ => rfl, fun _ => rfl, rfl, rfl, rfl, rfl, rfl, rfl, rfl⟩

/-- Settles O11. -/
theorem resetKeepsWhatWaits : Obligations.ResetKeepsWhatWaits := by
  unfold Obligations.ResetKeepsWhatWaits
  exact fun s ts hturn => ⟨_, step_reset hturn, rfl, rfl, rfl⟩

theorem dmodeBit_toNat (m : DelimMode) : (dmodeBit m).toNat = if m = .crOrLf then 1 else 0 := by
  cases m <;> rfl

theorem echoBit_toNat (echo : Bool) : (echoBit echo).toNat = if echo = true then 1 else 0 := by
  cases echo <;> rfl

/-- After reset CURSOR and PHASE are 0, so the STATUS word has only DMODE and ECHO. -/
theorem statusWord_resetWith_toNat (p : Params) :
    (statusWord (State.resetWith p)).toNat =
      (if p.delimMode = .crOrLf then 8 else 0) + (if p.echo = true then 4 else 0) := by
  have hcursor : (State.resetWith p).cursor.toNat = 0 := rfl
  have hphase : (phaseCode (State.resetWith p).phase).toNat = 0 := rfl
  have hparams : (State.resetWith p).params = p := rfl
  rw [statusWord_toNat, hcursor, hphase, hparams, dmodeBit_toNat, echoBit_toNat]
  split <;> split <;> rfl

/-- Settles O12: the values of R35 and the STATUS word of R33. -/
theorem stateAfterReset : Obligations.StateAfterReset := by
  unfold Obligations.StateAfterReset
  exact ⟨rfl, fun p => ⟨rfl, fun _ => rfl, rfl, rfl, rfl, rfl, rfl, rfl, rfl, rfl, statusWord_resetWith_toNat p⟩⟩

/-- Settles O13. -/
theorem idleStepChangesNothing : Obligations.IdleStepChangesNothing := by
  unfold Obligations.IdleStepChangesNothing
  exact fun s => step_idle

/-- In a live block an operation answers a next state where its phase has a step for it: RX_BYTE in RUN, and LFS_RELEASE
in OVF_PENDING with a byte held. -/
theorem exec_answers {i : Instr} {s : State} (hs : s.fault = none) (hrx : i.port = .rx → s.phase = .run)
    (hheld : s.phase = .ovfPending → s.held ≠ none) : ∃ t, exec i s = .next t := by
  cases i with
  | nop => exact ⟨_, exec_nop_of_live hs⟩
  | crcInit => exact ⟨_, exec_crcInit_of_live hs⟩
  | crcFeed d => exact ⟨_, exec_crcFeed_of_live d hs⟩
  | crcBuf n =>
    cases h : bytesOperand s n with
    | error r => exact ⟨_, exec_crcBuf_of_error hs h⟩
    | ok bs => exact ⟨_, exec_crcBuf_of_ok hs h⟩
  | crcRd => exact ⟨_, exec_crcRd_of_live hs⟩
  | lfsRelease =>
    cases hp : s.phase with
    | run => exact ⟨_, exec_lfsRelease_of_run hs hp⟩
    | linePending => exact ⟨_, exec_lfsRelease_of_linePending hs hp⟩
    | ovfPending =>
      obtain ⟨b, hb⟩ := Option.ne_none_iff_exists'.1 (hheld hp)
      exact ⟨_, exec_lfsRelease_of_ovfPending hs hp hb⟩
  | lfsClear => exact ⟨_, exec_lfsClear_of_live hs⟩
  | bufRd a =>
    cases h : byteOperand s a with
    | error r => exact ⟨_, exec_bufRd_of_error hs h⟩
    | ok b => exact ⟨_, exec_bufRd_of_ok hs h⟩
  | bufWr a d =>
    rcases Nat.lt_or_ge a.toNat s.cap with h | h
    · exact ⟨_, exec_bufWr_in_range d hs h⟩
    · exact ⟨_, exec_bufWr_past_capacity d hs h⟩
  | statusRd => exact ⟨_, exec_statusRd_of_live hs⟩
  | lenRd => exact ⟨_, exec_lenRd_of_live hs⟩
  | rxByte b => exact ⟨_, exec_rxByte_of_run b hs (hrx rfl)⟩

theorem port_of_encode_op {i : Instr} {w : Word} (h : encode i = .op w) : i.port = .control := by
  cases i with
  | rxByte b => cases h
  | _ => rfl

theorem runWord_op_answers {s : State} (w : Word) (hs : s.fault = none)
    (hheld : s.phase = .ovfPending → s.held ≠ none) : ∃ t, runWord (.op w) s = .next t := by
  cases h : decodeOp w with
  | error e => exact ⟨_, runWord_illegal hs h⟩
  | ok i =>
    have hport : i.port = .control := port_of_encode_op (encode_of_decodeOp h)
    obtain ⟨t, ht⟩ := exec_answers (i := i) hs (fun hrx => by cases hport.symm.trans hrx) hheld
    exact ⟨t, by rw [runWord_legal h, ht]⟩

theorem channelTurn_answers (s : State) : ∃ t, channelTurn s = .next t := by
  cases hready : s.rxReady with
  | false => exact ⟨s, channelTurn_not_ready hready⟩
  | true =>
    cases hb : s.channel with
    | nil => exact ⟨s, channelTurn_empty hb⟩
    | cons b bs =>
      obtain ⟨hp, hs⟩ := (rxReady_iff s).1 hready
      exact ⟨_, (channelTurn_byte hready hb).trans (exec_rxByte_of_run (s := { s with channel := bs }) b hs hp)⟩

theorem controllerTurn_answers {s : State} (hheld : s.phase = .ovfPending → s.held ≠ none) :
    ∃ t, controllerTurn s = .next t := by
  cases hs : s.fault with
  | some f => exact ⟨s, controllerTurn_faulted hs⟩
  | none =>
    cases hw : s.controller with
    | nil => exact ⟨s, controllerTurn_empty hs hw⟩
    | cons w ws =>
      obtain ⟨t, ht⟩ := runWord_op_answers (s := { s with controller := ws }) w hs hheld
      exact ⟨t, by rw [controllerTurn_word hs hw, ht]⟩

/-- Settles O48: of the invariant it needs that OVF_PENDING holds a byte. -/
theorem everyStepAnswersANextState : Obligations.EveryStepAnswersANextState := by
  unfold Obligations.EveryStepAnswersANextState
  intro s ⟨_, _, ⟨hheld, _⟩, _⟩
  cases hturn : s.turns with
  | nil => exact ⟨s, step_idle hturn⟩
  | cons u ts =>
    cases u with
    | channel =>
      rw [step_channel hturn]
      exact channelTurn_answers _
    | controller =>
      rw [step_controller hturn]
      exact controllerTurn_answers (s := { s with turns := ts }) hheld.2
    | reset => exact ⟨_, step_reset hturn⟩

end Sys2Proof.Machine

/-! PROOFS. O47, O49 and O51 to O55, the rules of the whole machine (10_state.md R28, R29, R34; 20_memory.md R53;
60_exceptions.md R190, R195): what one operation keeps, and then what a step keeps. -/

namespace Sys2Proof.Machine

@[simp] theorem State.accept_params (s : State) (b : Byte) : (s.accept b).params = s.params := by
  cases hd : isDelim s.params b
  · rw [accept_other hd]
  · rw [accept_delim hd]

theorem exec_params {i : Instr} {s t : State} (h : exec i s = .next t) : t.params = s.params := by
  obtain ⟨_, ⟨_, rfl⟩ | ⟨_, _, rfl⟩ | ⟨_, _, rfl⟩ | ⟨_, _, rfl⟩ | ⟨_, _, rfl⟩ | ⟨b, _, _, _, rfl⟩ | ⟨_, rfl⟩ |
    ⟨_, _, _, _, rfl⟩ | ⟨_, _, _, _, rfl⟩ | ⟨b, _, _, _, rfl⟩⟩ := exec_cases h
  all_goals simp

/-- Settles O47. -/
theorem parametersNeverChange : Obligations.ParametersNeverChange := by
  unfold Obligations.ParametersNeverChange
  intro s t h
  obtain ⟨ts, bs, ws, rfl | ⟨_, rfl⟩ | ⟨_, _, rfl⟩ | ⟨i, he⟩⟩ := step_on_block h
  · rfl
  · rfl
  · rfl
  · exact (exec_params he).trans (State.withInputs_params s ts bs ws)

/-- Settles O49: no operation runs in a faulted block, so of a step's cases a turn that passes and RESET are left. -/
theorem faultStaysUntilReset : Obligations.FaultStaysUntilReset := by
  unfold Obligations.FaultStaysUntilReset
  intro s t f hf h
  have hne : s.fault ≠ none := by simp [hf]
  obtain ⟨ts, bs, ws, rfl | ⟨⟨us, hturn⟩, rfl⟩ | ⟨_, hs, rfl⟩ | ⟨i, he⟩⟩ := step_on_block h
  · exact .inl hf
  · exact .inr ⟨us, hturn, rfl⟩
  · exact absurd hs hne
  · exact absurd (exec_cases he).1 hne

/-- A raised fault record gives its reason. -/
theorem reason_of_raise {s : State} {r : FaultReason} {w : Word} {f : FaultRecord} (h : (s.raise r w).fault = some f) :
    f.reason = r := by
  cases h
  rfl

theorem fault_ne_some_of_live {s : State} {f : FaultRecord} (hs : s.fault = none) : s.fault ≠ some f := by
  simp [hs]

/-- Settles O52: an operation that enters the fault state is one of the four that raise a fault. -/
theorem operationsThatNeverFault : Obligations.OperationsThatNeverFault := by
  unfold Obligations.OperationsThatNeverFault
  intro i s t h hi
  obtain ⟨hs, ⟨_, rfl⟩ | ⟨_, _, rfl⟩ | ⟨_, _, rfl⟩ | ⟨r, hr, rfl⟩ | ⟨_, _, rfl⟩ | ⟨_, _, _, _, rfl⟩ | ⟨_, rfl⟩ |
    ⟨_, _, _, _, rfl⟩ | ⟨_, _, _, _, rfl⟩ | ⟨_, _, _, _, rfl⟩⟩ := exec_cases h
  case inr.inr.inr.inl => obtain ⟨n, rfl⟩ | rfl | ⟨a, rfl⟩ | ⟨a, d, rfl⟩ := hr <;> simp at hi
  all_goals simpa using hs

theorem exec_bufRd_faults {s t : State} {a : Half} {f : FaultRecord} (h : exec (.bufRd a) s = .next t)
    (hf : t.fault = some f) :
    (s.cap ≤ a.toNat ∧ f.reason = .addrRange) ∨
      (a.toNat < s.cap ∧ s.written a.toNat = false ∧ f.reason = .uninitRead) := by
  obtain ⟨hs, ⟨hle, rfl⟩ | ⟨hlt, hread, rfl⟩ | ⟨_, _, _, rfl⟩⟩ := exec_bufRd_next h
  · exact .inl ⟨hle, reason_of_raise hf⟩
  · exact .inr ⟨hlt, written_eq_false_iff.2 hread, reason_of_raise hf⟩
  · exact absurd hf (fault_ne_some_of_live hs)

theorem exec_bufWr_faults {s t : State} {a : Half} {d : Byte} {f : FaultRecord} (h : exec (.bufWr a d) s = .next t)
    (hf : t.fault = some f) : s.cap ≤ a.toNat ∧ f.reason = .addrRange := by
  obtain ⟨hs, ⟨hle, rfl⟩ | ⟨_, rfl⟩⟩ := exec_bufWr_next h
  · exact ⟨hle, reason_of_raise hf⟩
  · exact absurd hf (fault_ne_some_of_live hs)

theorem exec_crcBuf_faults {s t : State} {n : Half} {f : FaultRecord} (h : exec (.crcBuf n) s = .next t)
    (hf : t.fault = some f) :
    (s.cap < n.toNat ∧ f.reason = .addrRange) ∨
      ∃ a, n.toNat ≤ s.cap ∧ a < n.toNat ∧ s.written a = false ∧ f.reason = .uninitRead := by
  obtain ⟨hs, ⟨hlt, rfl⟩ | ⟨hle, hread, rfl⟩ | ⟨_, _, _, rfl⟩⟩ := exec_crcBuf_next h
  · exact .inl ⟨hlt, reason_of_raise hf⟩
  · obtain ⟨a, ha, hnone⟩ := (Memory.readFirst_eq_none s.buf n.toNat).1 hread
    exact .inr ⟨a, hle, ha, written_eq_false_iff.2 hnone, reason_of_raise hf⟩
  · exact absurd hf (fault_ne_some_of_live hs)

theorem exec_lfsRelease_faults {s t : State} {f : FaultRecord} (h : exec .lfsRelease s = .next t)
    (hf : t.fault = some f) : s.phase = .run ∧ f.reason = .protocolViolation := by
  obtain ⟨hs, ⟨hp, rfl⟩ | ⟨_, rfl⟩ | ⟨b, _, _, rfl⟩⟩ := exec_lfsRelease_next h
  · exact ⟨hp, reason_of_raise hf⟩
  · exact absurd hf (fault_ne_some_of_live hs)
  · rw [State.accept_fault] at hf
    exact absurd hf (fault_ne_some_of_live hs)

/-- Settles O51: the four operations that can fault, each with its own rows of R190's table; the others never do. -/
theorem faultsOfEachOperation : Obligations.FaultsOfEachOperation := by
  unfold Obligations.FaultsOfEachOperation
  intro i s t f h hf
  have never := operationsThatNeverFault i s t h
  cases i with
  | bufRd a =>
    obtain ⟨hle, hr⟩ | ⟨hlt, hw, hr⟩ := exec_bufRd_faults h hf
    · exact .inl ⟨a, .inl rfl, hle, hr⟩
    · exact .inr (.inr (.inl ⟨a, rfl, hlt, hw, hr⟩))
  | bufWr a d =>
    obtain ⟨hle, hr⟩ := exec_bufWr_faults h hf
    exact .inl ⟨a, .inr ⟨d, rfl⟩, hle, hr⟩
  | crcBuf n =>
    obtain ⟨hlt, hr⟩ | ⟨a, hle, ha, hw, hr⟩ := exec_crcBuf_faults h hf
    · exact .inr (.inl ⟨n, rfl, hlt, hr⟩)
    · exact .inr (.inr (.inr (.inl ⟨n, a, rfl, hle, ha, hw, hr⟩)))
  | lfsRelease =>
    obtain ⟨hp, hr⟩ := exec_lfsRelease_faults h hf
    exact .inr (.inr (.inr (.inr ⟨rfl, hp, hr⟩)))
  | _ => exact absurd hf (fault_ne_some_of_live (never (by simp)))

theorem exec_trace {i : Instr} {s t : State} (h : exec i s = .next t) : ∃ es, t.trace = s.trace ++ es := by
  obtain ⟨_, hes⟩ | ⟨es, hes⟩ := lineLengthFollowsTheLineEvent i s t h
  · obtain ⟨es, hes, _⟩ := hes
    exact ⟨es, hes⟩
  · exact ⟨es ++ [.line t.lineLen.toNat], by rw [hes, List.append_assoc]⟩

/-- Settles O53. -/
theorem traceOnlyGrows : Obligations.TraceOnlyGrows := by
  unfold Obligations.TraceOnlyGrows
  intro s t h
  obtain ⟨ts, bs, ws, rfl | ⟨⟨us, hturn⟩, rfl⟩ | ⟨_, _, rfl⟩ | ⟨i, he⟩⟩ := step_on_block h
  · exact .inl ⟨[], (List.append_nil _).symm⟩
  · exact .inr ⟨us, hturn, rfl⟩
  · exact .inl ⟨[], (List.append_nil _).symm⟩
  · exact .inl (by simpa using exec_trace he)

theorem written_accept_of_written {s : State} {a : Nat} (b : Byte) (h : s.written a = true) :
    (s.accept b).written a = true := by
  have hstored := written_storeByte_of_written s.cursor.toNat b h
  rwa [State.written, State.storeByte_buf, ← State.accept_buf] at hstored

/-- An operation stores a byte or keeps the buffer. -/
theorem exec_written {i : Instr} {s t : State} {a : Nat} (h : exec i s = .next t) (ha : s.written a = true) :
    t.written a = true := by
  obtain ⟨_, ⟨_, rfl⟩ | ⟨_, _, rfl⟩ | ⟨_, _, rfl⟩ | ⟨_, _, rfl⟩ | ⟨_, _, rfl⟩ | ⟨b, _, _, _, rfl⟩ | ⟨_, rfl⟩ |
    ⟨c, d, _, _, rfl⟩ | ⟨_, _, _, _, rfl⟩ | ⟨b, _, _, _, rfl⟩⟩ := exec_cases h
  · exact ha
  · exact ha
  · exact ha
  · exact ha
  · exact ha
  · exact written_accept_of_written (s := s.resume) b ha
  · exact ha
  · exact written_storeByte_of_written c.toNat d ha
  · exact ha
  · exact written_accept_of_written b ha

/-- Settles O54. -/
theorem writtenCellStaysReadable : Obligations.WrittenCellStaysReadable := by
  unfold Obligations.WrittenCellStaysReadable
  intro s t a ha h
  obtain ⟨ts, bs, ws, rfl | ⟨hturn, rfl⟩ | ⟨_, _, rfl⟩ | ⟨i, he⟩⟩ := step_on_block h
  · exact .inl ha
  · exact .inr hturn
  · exact .inl ha
  · exact .inl (exec_written he ha)

/-- In a pending phase RX_BYTE has no step, and of the other operations only LFS_RELEASE sets the phase. -/
theorem exec_phase_of_pending {i : Instr} {s t : State} (hp : s.phase ≠ .run) (h : exec i s = .next t) :
    t.phase = s.phase ∨ i = .lfsRelease := by
  obtain ⟨_, ⟨_, rfl⟩ | ⟨_, _, rfl⟩ | ⟨_, _, rfl⟩ | ⟨_, _, rfl⟩ | ⟨hi, _⟩ | ⟨_, hi, _⟩ | ⟨_, rfl⟩ |
    ⟨_, _, _, _, rfl⟩ | ⟨_, _, hrun, _⟩ | ⟨_, _, hrun, _⟩⟩ := exec_cases h
  · exact .inl rfl
  · exact .inl rfl
  · exact .inl rfl
  · exact .inl rfl
  · exact .inr hi
  · exact .inr hi
  · exact .inl rfl
  · exact .inl rfl
  · exact absurd hrun hp
  · exact absurd hrun hp

/-- Settles O55: LFS_RELEASE comes from the controller, and it has one word. -/
theorem pendingEndsOnlyByRelease : Obligations.PendingEndsOnlyByRelease := by
  unfold Obligations.PendingEndsOnlyByRelease
  intro s t hp h
  obtain ⟨_, rfl⟩ | ⟨_, _, _, _, rfl⟩ | ⟨ts, hturn, _⟩ | ⟨_, _, _, _, _, _, _, _, rfl⟩ |
    ⟨ts, w, ws, i, hturn, hw, hd, he⟩ | ⟨_, _, _, _, _, hready, _⟩ := step_cases h
  · exact .inl rfl
  · exact .inl rfl
  · exact .inr (.inl ⟨ts, hturn⟩)
  · exact .inl rfl
  · obtain hphase | rfl := exec_phase_of_pending (s := { s with turns := ts, controller := ws }) hp he
    · exact .inl hphase
    · obtain rfl : w = 0x50000000 := (decodeOp_eq_ok_iff_eq rfl).1 hd
      exact .inr (.inr ⟨ts, ws, hturn, hw⟩)
  · exact absurd ((rxReady_iff s).1 hready).1 hp

end Sys2Proof.Machine
